-- ==== Sys2Proof/Word.lean ====
section
/-! DEFINITION. The widths of the packet framer's values (00_scope.md R9, 20_memory.md R63, 30_encoding.md R80).
Every value the spec calls a byte, a command word or a register value is a bit vector of its width. Counts, indexes and
lengths are `Nat`. Every integer is unsigned (R9) and no field is sign-extended. -/

namespace Sys2Proof

/-- A byte, an unsigned integer 0..255 (R9). -/
abbrev Byte := BitVec 8

/-- A host command word, or the 16-bit argument of a LOG event (R80, R99). -/
abbrev Word16 := BitVec 16

/-- The value of a register read, zero-extended to 32 bits (R28, R100). -/
abbrev Word32 := BitVec 32

end Sys2Proof
end

