-- ==== Sys2Proof/Syntax.lean ====
section
/-! DEFINITION. The host commands: one constructor for each row of spec/opcode_table.json (30_encoding.md R82). The data byte
D is an unsigned byte, with no extension and no scaling (R81). A word that is none of the four legal commands is not an
instruction: the decoder rejects it by name and the step performs it as an illegal command (R83, R236). -/

namespace Sys2Proof

/-- The command set of R82. -/
inductive Instr where
  /-- PUSH: feed the input byte b (R231). -/
  | push (b : Byte)
  /-- RESET: session reset (R233). -/
  | reset
  /-- SETMODE: select the checksum variant m (R234). -/
  | setmode (m : Byte)
  /-- RDREG: read the register numbered r (R235). -/
  | rdreg (r : Byte)
deriving DecidableEq, Repr

end Sys2Proof
end

