-- ==== Sys2Proof/WellFormed.lean ====
section
/-! DEFINITION. Which commands have a legal data byte (30_encoding.md R82). A PUSH takes any byte and RESET has no operand;
SETMODE takes a mode 0..2 and RDREG an assigned register number 0x00..0x0A. -/

namespace Sys2Proof

/-- The legal data bytes of R82. -/
def Instr.wellFormed : Instr → Bool
  | .push _ => true
  | .reset => true
  | .setmode m => decide (m ≤ 0x02)
  | .rdreg r => decide (r ≤ 0x0A)

end Sys2Proof
end

