-- ==== Sys2Proof/Decode.lean ====
section
/-! DEFINITION. The command decoder of 30_encoding.md R84, total over all 2^16 words, and the encoder of R82. A command word
is one 16-bit transaction and has no byte order on this interface (20_memory.md R63), so decoder and encoder work on the
whole word. -/

namespace Sys2Proof

/-- Why a word is no legal command: the five cases of R83. -/
inductive IllegalReason where
  /-- OP = 0x00. -/
  | opcodeZero
  /-- OP in 0x05..0xFF. -/
  | opcodeUnassigned
  /-- RESET with D != 0x00. -/
  | resetOperand
  /-- SETMODE with D >= 0x03. -/
  | modeReserved
  /-- RDREG with D >= 0x0B. -/
  | registerUnassigned
deriving DecidableEq, Repr

/-- What a word decodes to: one of the four legal commands, or illegal (R83: "every 16-bit word is exactly one of the four
legal commands or illegal"). -/
inductive Decoded where
  | legal (i : Instr)
  | illegal (why : IllegalReason)
deriving DecidableEq, Repr

/-- The field OP = w[15:8] (R80). -/
def opField (w : Word16) : Byte := w.extractLsb' 8 8

/-- The field D = w[7:0] (R80). -/
def dataField (w : Word16) : Byte := w.extractLsb' 0 8

/-- The opcode numbers of R82. -/
def opPush : Byte := 0x01
def opReset : Byte := 0x02
def opSetmode : Byte := 0x03
def opRdreg : Byte := 0x04

/-- The decoding procedure of R84. A word that R84 sends to ILLEGAL is rejected with the case of R83 that it falls under. -/
def decode (w : Word16) : Decoded :=
  let op := opField w
  let d := dataField w
  if op = opPush then .legal (.push d)
  else if op = opReset then
    if d = 0x00 then .legal .reset else .illegal .resetOperand
  else if op = opSetmode then
    if d ≤ 0x02 then .legal (.setmode d) else .illegal .modeReserved
  else if op = opRdreg then
    if d ≤ 0x0A then .legal (.rdreg d) else .illegal .registerUnassigned
  else if op = 0x00 then .illegal .opcodeZero
  else .illegal .opcodeUnassigned

/-- A command word from its two fields (R80). -/
def cmdWord (op d : Byte) : Word16 := op ++ d

/-- The encoder, from the opcode map of R82. The data byte of RESET is 0x00 (R81). -/
def encode : Instr → Word16
  | .push b => cmdWord opPush b
  | .reset => cmdWord opReset 0x00
  | .setmode m => cmdWord opSetmode m
  | .rdreg r => cmdWord opRdreg r

/-- `PUSHN b0, …, bk-1`, the pseudo-instruction of R85 and 45_commands.md R232: one PUSH a byte, in order. -/
def pushN (bs : List Byte) : List Instr := bs.map Instr.push

/-- The command word whose low nbits bits are those of w and whose other bits are 0; none where a bit above 15 is set, since no
command is longer than one 16-bit word (R80). -/
def tableWord (nbits w : Nat) : Option Word16 :=
  let v := w % 2 ^ nbits
  if v < 2 ^ 16 then some (BitVec.ofNat 16 v) else none

/-- The instruction the decoder reads from a table row's word, bit 0 the least significant bit of the command word. -/
def decodeTableWord (nbits w : Nat) : Option Instr :=
  match tableWord nbits w with
  | none => none
  | some v =>
    match decode v with
    | .legal i => some i
    | .illegal _ => none

end Sys2Proof
end

