-- ==== Sys2Proof/Config.lean ====
section
/-! DEFINITION. The parameters of 00_scope.md R7. `Params` is the list of them with the constraints the spec puts on each.
Every function of the model that depends on a parameter takes a `Params` argument, as R91 asks ("A model takes them as
arguments and must not hard-code them"). `Config.params` is the parameter set of THIS block: the OPEN parameters are opaque
constants with no body, so no proof can see a value of one of them, and together they range over every legal choice. -/

namespace Sys2Proof

/-- The message kinds of 30_encoding.md R95. -/
inductive MsgKind where
  | sysAck | tareAck | info | status | identAck | timerNotice | event | unknown
deriving DecidableEq, Repr, Inhabited

/-- The event-record kinds of 30_encoding.md R91. A type byte of no kind is "unknown". -/
inductive EvKind where
  | weight | battery | timer | key | ack
deriving DecidableEq, Repr, Inhabited

/-- The parameters of R7, with the constraints the spec puts on them. They are fixed before power-on (R292, D29) and are
not state (R20). -/
structure Params where
  /-- `BUF_CAP`, the capacity of the byte buffer (D5). -/
  bufCap : Nat
  bufCap_min : 260 ≤ bufCap
  bufCap_max : bufCap ≤ 65535
  /-- `MSG_KIND`, the map from message-type byte to message kind (R95, D13). -/
  msgKind : Byte → MsgKind
  /-- R95: "At most one byte value may map to EVENT". -/
  msgKind_event_unique : ∀ a b, msgKind a = .event → msgKind b = .event → a = b
  evtWeight : Byte
  evtBattery : Byte
  evtTimer : Byte
  evtKey : Byte
  evtAck : Byte
  /-- R7, D14: the five event-type bytes are pairwise distinct. -/
  evt_distinct : [evtWeight, evtBattery, evtTimer, evtKey, evtAck].Nodup
  /-- `WDIV_OFF`, the offset of the divisor byte in the 6-byte weight body (R92, D15). -/
  wdivOff : Fin 6
  /-- `WFLG_OFF`, the offset of the flags byte in the 6-byte weight body (R92, D15). -/
  wflgOff : Fin 6

namespace Config

/-- `M1`, the first marker byte (R7, R86). -/
abbrev m1 : Byte := 0xEF

/-- `M2`, the second marker byte (R7, R86). -/
abbrev m2 : Byte := 0xDD

/-- `HDR`, the header size in bytes: M1, M2 and the message type (R7). -/
abbrev hdr : Nat := 3

/-- `TAIL`, the checksum tail size in bytes, in every mode (R7, D8). -/
abbrev tail : Nat := 2

/-- OPEN (R7, D5): how far `BUF_CAP` lies above its least legal value 260. The 65276 values give every capacity 260..65535. -/
opaque bufSpare : Fin 65276

/-- OPEN (R95, D13): the one message-type byte that maps to EVENT, if any does. -/
opaque eventType : Option Byte

/-- OPEN (R95, D13): the kind of every other message-type byte. -/
opaque otherKind : Byte → MsgKind

/-- OPEN (R91, D14): an arbitrary permutation of the byte values. The event-type bytes are its images of 0..4: any five
pairwise distinct bytes are such images, and such images are always pairwise distinct. -/
opaque evtCode : Equiv.Perm Byte

/-- `MSG_KIND` built from the open choices: at most one byte maps to EVENT (R95). Every legal map has this form. -/
def msgKind (t : Byte) : MsgKind :=
  if eventType = some t then .event
  else match otherKind t with
    | .event => .unknown
    | k => k

theorem msgKind_eq_event {t : Byte} (h : msgKind t = .event) : eventType = some t := by
  unfold msgKind at h
  split at h
  · assumption
  · split at h <;> simp_all

/-- The parameter set of this block. `WDIV_OFF` and `WFLG_OFF` have the values R7 gives "for this hardware". -/
def params : Params where
  bufCap := bufSpare.val + 260
  bufCap_min := by omega
  bufCap_max := by omega
  msgKind := msgKind
  msgKind_event_unique := fun a b ha hb =>
    Option.some.inj ((msgKind_eq_event ha).symm.trans (msgKind_eq_event hb))
  evtWeight := evtCode 0
  evtBattery := evtCode 1
  evtTimer := evtCode 2
  evtKey := evtCode 3
  evtAck := evtCode 4
  evt_distinct := by simp
  wdivOff := 3
  wflgOff := 4

end Config

end Sys2Proof
end

