-- ==== Sys2Proof/Machine/State.lean ====
section
/-! DEFINITION. The state of the block (10_state.md R20 to R30): the tuple (BUF, ERRCNT, CKSUM_MODE, SCALE), the output trace
OUT, and one field of the model's own, the command port's queue. There is no program counter, no general register, no mode
bit, no exception register and no addressable memory (R27, R60, R263, R266, R268). -/

namespace Sys2Proof.Machine

/-- `CKSUM_MODE` (R23). The 2-bit register's reserved value 3 is "never held", so the type has no constructor for it. -/
inductive CksumMode where
  | split | sumTails | sumLast
deriving DecidableEq, Repr

/-- `W_UNIT` (R24): 0 NONE, 1 GRAMS, 2 OUNCES. The 2-bit field's value 3 is "never held", so the type has no constructor for it. -/
inductive WUnit where
  | noUnit | grams | ounces
deriving DecidableEq, Repr

/-- The scale-state record SCALE, field by field (R24). -/
structure Scale where
  /-- W_MAG, 24 bits: weight magnitude, unsigned. -/
  wMag : BitVec 24
  /-- W_DIV, 8 bits: the divisor byte, the decimal exponent of the weight. -/
  wDiv : Byte
  /-- W_NEG, 1 bit: weight negative. -/
  wNeg : Bool
  /-- W_STABLE, 1 bit: weight stable. -/
  wStable : Bool
  /-- W_UNIT, 2 bits. -/
  wUnit : WUnit
  /-- BATTERY, 8 bits: percentage, unscaled. -/
  battery : Byte
  /-- TMR_MIN, 8 bits. -/
  tmrMin : Byte
  /-- TMR_SEC, 8 bits. -/
  tmrSec : Byte
  /-- TMR_MS, 8 bits. -/
  tmrMs : Byte
deriving DecidableEq, Repr

/-- Every SCALE field at 0, W_UNIT at NONE (R290). -/
def Scale.zero : Scale where
  wMag := 0
  wDiv := 0
  wNeg := false
  wStable := false
  wUnit := .noUnit
  battery := 0
  tmrMin := 0
  tmrSec := 0
  tmrMs := 0

/-- One decoded event record, as a MEAS event carries it (30_encoding.md R98). -/
inductive Meas where
  | weight (mag : BitVec 24) (div : Byte) (neg stable : Bool) (unit : WUnit)
  | battery (pct : Byte)
  | timer (min sec ms : Byte)
  | key (raw : Byte)
  | ack (b0 b1 : Byte)
deriving DecidableEq, Repr

/-- The anomaly causes of 60_exceptions.md R261. Their code numbers are `LogCode.number`. -/
inductive LogCode where
  | cksumErr | unknownMsg | unknownEvent | truncEvent | illegalCmd
deriving DecidableEq, Repr

/-- The output events of R30, with the contents of 30_encoding.md R97 to R100. -/
inductive OutEvent where
  | pkt (kind : MsgKind) (bytes : List Byte)
  | meas (m : Meas)
  | log (code : LogCode) (arg : Word16)
  | rsp (reg : Byte) (value : Word32)
deriving DecidableEq, Repr

/-- The buffer space (20_memory.md R60): the block's only memory, bytes indexed 0..|BUF|-1 in arrival order. The host has no
address into it, so it is a sequence and not an address map: equal contents are equal lists. -/
abbrev Memory := List Byte

/-- The form of the buffer space: 0 <= |BUF| <= BUF_CAP (R21). -/
def Memory.wf (cfg : Params) (m : Memory) : Bool := decide (m.length ≤ cfg.bufCap)

/-- The state of the block. -/
structure State where
  /-- BUF, the input bytes not yet consumed, in arrival order (R21). -/
  buf : Memory
  /-- ERRCNT, the count of packets that failed validation (R22). -/
  errcnt : BitVec 32
  /-- CKSUM_MODE, the checksum-variant control register (R23). -/
  cksumMode : CksumMode
  /-- SCALE, the most recently decoded measurements (R24). -/
  scale : Scale
  /-- OUT, the output events emitted since power-on, oldest first (R30). -/
  out : List OutEvent
  /-- The MODEL's own field: the command words the host has put on the command port and the block has not yet performed, in
  issue order (20_memory.md R66, R71, R72). The host alone adds to it; a step takes its first word. -/
  cmds : List Word16
deriving DecidableEq, Repr

/-- The state right after power-on reset (70_reset_and_hazards.md R290); the host has issued no command yet. -/
def State.reset : State where
  buf := []
  errcnt := 0
  cksumMode := .split
  scale := Scale.zero
  out := []
  cmds := []

/-- The reasons a step stops with a fault: none. "The block has no exceptions, traps or fatal states" (60_exceptions.md R260),
so the type has no constructor and nothing raises it (safe: no behaviour is cut short). -/
inductive Fault where
deriving DecidableEq, Repr

/-- The reasons a step is refused. -/
inductive Refusal where
  /-- Raised by `exec` for an instruction that has no meaning yet. No arm of this model raises it (safe: a refused step
  proves nothing about the hardware). -/
  | notModelled (mnemonic : String)
deriving DecidableEq, Repr

end Sys2Proof.Machine
end

