-- ==== Sys2Proof/Machine/Operands.lean ====
section
/-! DEFINITION. Operand forms: the sequence operations of 00_scope.md R10, the field extraction of 30_encoding.md R96, the mode
and register numbers a command names, and the parameter look-ups by message type and event type. -/

namespace Sys2Proof.Machine

/-- `s[a..b)`: elements a to b-1, empty when b <= a (R10). -/
def slice (a b : Nat) (s : List Byte) : List Byte := (s.take b).drop a

/-- `s[i]`, for i < |s| (R10). Every use is guarded by a length test, so the value past the end is never used. -/
def byteAt (s : List Byte) (i : Nat) : Byte := s.getD i 0

/-- `even(s)`: s[0], s[2], s[4], … (R10). -/
def evens : List Byte → List Byte
  | [] => []
  | [x] => [x]
  | x :: _ :: rest => x :: evens rest

/-- `odd(s)`: s[1], s[3], … (R10). -/
def odds : List Byte → List Byte
  | [] => []
  | [_] => []
  | _ :: y :: rest => y :: odds rest

/-- `Σ s` as an integer (R10). -/
def sumBytes (s : List Byte) : Nat := (s.map BitVec.toNat).sum

/-- The message type T = p[2] (R96). -/
def packetType (p : List Byte) : Byte := byteAt p 2

/-- The checksum region P = p[3..L-2) (R96). -/
def checksumRegion (p : List Byte) : List Byte := slice Config.hdr (p.length - Config.tail) p

/-- The first checksum byte C0 = p[L-2] (R96). -/
def checksumByte0 (p : List Byte) : Byte := byteAt p (p.length - 2)

/-- The second checksum byte C1 = p[L-1] (R96). -/
def checksumByte1 (p : List Byte) : Byte := byteAt p (p.length - 1)

/-- The event region E = p[4..L-2) (R89, R96). -/
def eventRegion (p : List Byte) : List Byte := slice 4 (p.length - Config.tail) p

/-- The mode a SETMODE data byte names (10_state.md R23); none for 3 and above, which SETMODE refuses (R83). -/
def modeOfByte (m : Byte) : Option CksumMode :=
  if m = 0x00 then some .split
  else if m = 0x01 then some .sumTails
  else if m = 0x02 then some .sumLast
  else none

/-- The 2-bit value of CKSUM_MODE (10_state.md R23). -/
def modeBits : CksumMode → BitVec 2
  | .split => 0
  | .sumTails => 1
  | .sumLast => 2

/-- The registers of the register map (10_state.md R28). -/
inductive Reg where
  | status | ctrl | errcnt | buflevel | wmag | wdiv | wflags | battery | tmrmin | tmrsec | tmrms
deriving DecidableEq, Repr

/-- The register numbers of R28. -/
def regNumber : Reg → Byte
  | .status => 0x00
  | .ctrl => 0x01
  | .errcnt => 0x02
  | .buflevel => 0x03
  | .wmag => 0x04
  | .wdiv => 0x05
  | .wflags => 0x06
  | .battery => 0x07
  | .tmrmin => 0x08
  | .tmrsec => 0x09
  | .tmrms => 0x0A

/-- Every register of the map, in number order (R28). -/
def allRegs : List Reg :=
  [.status, .ctrl, .errcnt, .buflevel, .wmag, .wdiv, .wflags, .battery, .tmrmin, .tmrsec, .tmrms]

/-- The register a RDREG data byte names; none for 0x0B and above, which are unassigned (R28, R83). -/
def regOfByte (r : Byte) : Option Reg := allRegs.find? fun x => regNumber x == r

/-- The kind of an event-type byte (30_encoding.md R91); none for an unknown type. -/
def evKind (cfg : Params) (t : Byte) : Option EvKind :=
  if t = cfg.evtWeight then some .weight
  else if t = cfg.evtBattery then some .battery
  else if t = cfg.evtTimer then some .timer
  else if t = cfg.evtKey then some .key
  else if t = cfg.evtAck then some .ack
  else none

/-- The body length of an event kind, not counting the type byte (30_encoding.md R91). -/
def bodyLength : EvKind → Nat
  | .weight => 6
  | .battery => 1
  | .timer => 3
  | .key => 1
  | .ack => 2

/-- `evlen(t)` (44_event_decoder.md R196); none stands for the -1 of an unknown type. -/
def evlen (cfg : Params) (t : Byte) : Option Nat := (evKind cfg t).map bodyLength

end Sys2Proof.Machine
end

