-- ==== Sys2Proof/Machine/Checksum.lean ====
section
/-! DEFINITION. The checksum validator (41_checksum.md). All sums are taken as integers and compared mod 256. There is no CRC
(00_scope.md R2). The validator checks neither the markers nor the length byte (R134). -/

namespace Sys2Proof.Machine

/-- SPLIT (R131): even and odd positions summed apart, each against its own tail byte. -/
def splitOK (P : List Byte) (c0 c1 : Byte) : Bool :=
  sumBytes (evens P) % 256 == c0.toNat && sumBytes (odds P) % 256 == c1.toNat

/-- SUM_TAILS (R132): the payload sum against the sum of the two tail bytes. -/
def sumTailsOK (P : List Byte) (c0 c1 : Byte) : Bool :=
  sumBytes P % 256 == (c0.toNat + c1.toNat) % 256

/-- SUM_LAST (R133): the payload sum against the last tail byte. -/
def sumLastOK (P : List Byte) (c1 : Byte) : Bool :=
  sumBytes P % 256 == c1.toNat

/-- `validate(p, mode)` (R130). A packet shorter than 5 bytes is invalid. -/
def validate (p : List Byte) (mode : CksumMode) : Bool :=
  if p.length < 5 then false
  else
    match mode with
    | .split => splitOK (checksumRegion p) (checksumByte0 p) (checksumByte1 p)
    | .sumTails => sumTailsOK (checksumRegion p) (checksumByte0 p) (checksumByte1 p)
    | .sumLast => sumLastOK (checksumRegion p) (checksumByte1 p)

end Sys2Proof.Machine
end

