-- ==== Sys2Proof/Machine/Scanner.lean ====
section
/-! DEFINITION. The header scanner (40_header_scanner.md). -/

namespace Sys2Proof.Machine

/-- The scan loop of R120 over the bytes from index i on. It looks at two bytes that are both present, so a trailing M1 is no
header (R121) and an isolated M1 is skipped (R122). -/
def scanFrom : List Byte → Nat → Option Nat
  | x :: y :: rest, i => if x = Config.m1 ∧ y = Config.m2 then some i else scanFrom (y :: rest) (i + 1)
  | _, _ => none

/-- `headerScan(s, start)` (R120): the least index at or after start of a marker pair; none is NOT_FOUND. -/
def headerScan (s : List Byte) (start : Nat) : Option Nat := scanFrom (s.drop start) start

end Sys2Proof.Machine
end

