-- ==== Sys2Proof/Machine/Flags.lean ====
section
/-! DEFINITION. The flags of the block, W_NEG, W_STABLE and FRAMING (10_state.md R32), and the unit. There are no condition
codes. -/

namespace Sys2Proof.Machine

/-- `FRAMING = (headerScan(BUF, 0) != NOT_FOUND)`, derived from BUF and not stored (10_state.md R26). -/
def framing (m : Memory) : Bool := (headerScan m 0).isSome

/-- `neg <- flags[1]` (44_event_decoder.md R199). -/
def negFlag (flags : Byte) : Bool := flags.getLsbD 1

/-- `stable <- NOT flags[0]` (44_event_decoder.md R199). -/
def stableFlag (flags : Byte) : Bool := !flags.getLsbD 0

/-- The unit a divisor byte names (30_encoding.md R93). -/
def unitOf (div : Byte) : WUnit :=
  if div = 0x02 then .grams
  else if div = 0x04 then .ounces
  else .noUnit

/-- The 2-bit value of W_UNIT (10_state.md R24). -/
def unitBits : WUnit → BitVec 2
  | .noUnit => 0
  | .grams => 1
  | .ounces => 2

/-- The WFLAGS bits `W_UNIT << 2 | W_STABLE << 1 | W_NEG` (10_state.md R28, R29). -/
def wflagsBits (sc : Scale) : BitVec 4 :=
  unitBits sc.wUnit ++ BitVec.ofBool sc.wStable ++ BitVec.ofBool sc.wNeg

end Sys2Proof.Machine
end

