-- ==== Sys2Proof/Machine/Ops.lean ====
section
/-! DEFINITION. The named operations over the state: the output trace, the anomaly report, the error counter, the two buffer
operations and the command port. The block has no exceptions (60_exceptions.md R260, R266): where an instruction set would take
one, this block reports the anomaly by `log` and goes on, and that is the one shared operation for it. -/

namespace Sys2Proof.Machine

/-- `emit(E)`: append an event to OUT (00_scope.md R11, 10_state.md R30). -/
def emit (e : OutEvent) (s : State) : State := { s with out := s.out ++ [e] }

/-- `log(code, arg)`: report an anomaly and go on (00_scope.md R11, 60_exceptions.md R260). No state but OUT changes. -/
def log (code : LogCode) (arg : Word16) (s : State) : State := emit (.log code arg) s

/-- The LOG code numbers of 60_exceptions.md R261. -/
def LogCode.number : LogCode → Byte
  | .cksumErr => 0x01
  | .unknownMsg => 0x02
  | .unknownEvent => 0x03
  | .truncEvent => 0x04
  | .illegalCmd => 0x05

/-- `sat_inc_W(v)`: v + 1 below 2^W - 1, else v (00_scope.md R11). -/
def satInc {w : Nat} (v : BitVec w) : BitVec w :=
  if v.toNat < 2 ^ w - 1 then v + 1 else v

/-- `ERRCNT <- sat_inc_32(ERRCNT)` (10_state.md R22). -/
def countError (s : State) : State := { s with errcnt := satInc s.errcnt }

/-- `MemRead(i, 1)`: BUF[i], for i < |BUF| (00_scope.md R11). -/
def memRead (m : Memory) (i : Nat) : Option Byte := m[i]?

/-- `BufDropFront(k)`: remove the first k bytes of BUF (20_memory.md R65). -/
def bufDropFront (k : Nat) (s : State) : State := { s with buf := s.buf.drop k }

/-- `BufAppend(b)`: add one byte at the end of BUF. At capacity the oldest byte is discarded first, without any output event
(20_memory.md R64). -/
def bufAppend (cfg : Params) (b : Byte) (s : State) : State :=
  let s := if s.buf.length = cfg.bufCap then bufDropFront 1 s else s
  { s with buf := s.buf ++ [b] }

/-- The command port: the next command word the host issued, and the state with it taken off the port (20_memory.md R66, R72). -/
def fetch (s : State) : Option (Word16 × State) :=
  match s.cmds with
  | [] => none
  | w :: rest => some (w, { s with cmds := rest })

/-- The host issues command words: they wait on the port behind the ones already there (20_memory.md R72). -/
def issue (ws : List Word16) (s : State) : State := { s with cmds := s.cmds ++ ws }

/-- Between commands the block "does nothing, and all state is kept until the next command" (60_exceptions.md R273). -/
def idle (s : State) : State := s

end Sys2Proof.Machine
end

