-- ==== Sys2Proof/Machine/Events.lean ====
section
/-! DEFINITION. The event decoder (44_event_decoder.md). -/

namespace Sys2Proof.Machine

/-- The 24-bit little-endian magnitude: body[0] least significant (20_memory.md R62). -/
def magnitude (body : List Byte) : BitVec 24 :=
  (byteAt body 0).setWidth 24 ||| (byteAt body 1).setWidth 24 <<< 8 ||| (byteAt body 2).setWidth 24 <<< 16

/-- Weight record (R199). Flag bits [7:2] and the body bytes no field names are ignored. -/
def applyWeight (cfg : Params) (body : List Byte) (s : State) : State :=
  let mag := magnitude body
  let div := byteAt body cfg.wdivOff
  let flags := byteAt body cfg.wflgOff
  let neg := negFlag flags
  let stable := stableFlag flags
  let unit := unitOf div
  emit (.meas (.weight mag div neg stable unit))
    { s with scale := { s.scale with wMag := mag, wDiv := div, wNeg := neg, wStable := stable, wUnit := unit } }

/-- Battery record (R200): stored as given, with no clamping. -/
def applyBattery (body : List Byte) (s : State) : State :=
  let b := byteAt body 0
  emit (.meas (.battery b)) { s with scale := { s.scale with battery := b } }

/-- Timer record (R201): each byte at face value. -/
def applyTimer (body : List Byte) (s : State) : State :=
  let mi := byteAt body 0
  let se := byteAt body 1
  let ms := byteAt body 2
  emit (.meas (.timer mi se ms)) { s with scale := { s.scale with tmrMin := mi, tmrSec := se, tmrMs := ms } }

/-- Key record (R202): reported, and no field of SCALE written. -/
def applyKey (body : List Byte) (s : State) : State := emit (.meas (.key (byteAt body 0))) s

/-- Ack record (R203): reported, and no field of SCALE written. -/
def applyAck (body : List Byte) (s : State) : State :=
  emit (.meas (.ack (byteAt body 0) (byteAt body 1))) s

/-- `applyEvent(t, body)` for a type byte of kind k (R197). It is called only with |body| = the body length of k. -/
def applyEvent (cfg : Params) (k : EvKind) (body : List Byte) (s : State) : State :=
  match k with
  | .weight => applyWeight cfg body s
  | .battery => applyBattery body s
  | .timer => applyTimer body s
  | .key => applyKey body s
  | .ack => applyAck body s

/-- The cursor loop of R195 over the region E, from cursor c, with at most `fuel` passes. The unknown-type test stands before
the length test (60_exceptions.md R265), and either stops the decoding of the region. -/
def decodeLoop (cfg : Params) (E : List Byte) : Nat → Nat → State → State
  | 0, _, s => s
  | fuel + 1, c, s =>
    if c < E.length then
      let t := byteAt E c
      match evKind cfg t with
      | none => log .unknownEvent (t.setWidth 16) s
      | some k =>
        let n := bodyLength k
        if c + 1 + n > E.length then log .truncEvent (t.setWidth 16) s
        else decodeLoop cfg E fuel (c + 1 + n) (applyEvent cfg k (slice (c + 1) (c + 1 + n) E) s)
    else s

/-- `decodeEvents(E)` (R195). Each pass that goes on advances the cursor by at least 2 (R198), so |E| passes are enough and the
bound is never what ends the loop. -/
def decodeEvents (cfg : Params) (E : List Byte) (s : State) : State := decodeLoop cfg E E.length 0 s

end Sys2Proof.Machine
end

