-- ==== Sys2Proof/Machine/Messages.lean ====
section
/-! DEFINITION. The message dispatcher (43_dispatcher.md). -/

namespace Sys2Proof.Machine

/-- `dispatch(p)` (R180): an EVENT packet's region is decoded, an unknown type is logged, every other kind is terminal (R181). -/
def dispatch (cfg : Params) (p : List Byte) (s : State) : State :=
  let t := packetType p
  match cfg.msgKind t with
  | .event => decodeEvents cfg (eventRegion p) s
  | .unknown => log .unknownMsg (t.setWidth 16) s
  | .sysAck => s
  | .tareAck => s
  | .info => s
  | .status => s
  | .identAck => s
  | .timerNotice => s

end Sys2Proof.Machine
end

