-- ==== Sys2Proof/Machine/Assembler.lean ====
section
/-! DEFINITION. The frame assembler (42_frame_assembler.md). -/

namespace Sys2Proof.Machine

/-- What `FrameStep` says of a buffer (R150). -/
inductive FrameResult where
  /-- No marker pair. -/
  | idle
  /-- A marker pair whose packet is incomplete. -/
  | wait
  /-- A complete packet p, whose first marker byte is at index h. -/
  | extract (h : Nat) (p : List Byte)
deriving DecidableEq, Repr

/-- `FrameStep(BUF)` (R150). The length byte at h + 3 is present exactly when |BUF| >= h + 4; the packet's length is then its
value + 5, for the 3-byte header and the 2-byte tail (30_encoding.md R88). -/
def frameStep (m : Memory) : FrameResult :=
  match headerScan m 0 with
  | none => .idle
  | some h =>
    match memRead m (h + 3) with
    | none => .wait
    | some n =>
      let total := n.toNat + 5
      if m.length < h + total then .wait
      else .extract h (slice h (h + total) m)

/-- A buffer that holds no complete packet (00_scope.md R13, R153). -/
def quiescent (m : Memory) : Bool :=
  match frameStep m with
  | .idle => true
  | .wait => true
  | .extract _ _ => false

/-- `HandlePacket(p)` (R152): a valid packet is reported and dispatched, an invalid one counted and logged. -/
def handlePacket (cfg : Params) (p : List Byte) (s : State) : State :=
  if validate p s.cksumMode then
    dispatch cfg p (emit (.pkt (cfg.msgKind (packetType p)) p) s)
  else
    log .cksumErr ((packetType p).setWidth 16) (countError s)

/-- The framing loop of R153, with at most `fuel` passes. The packet and the noise before it are removed first and only then is
the packet examined (R151). -/
def framingLoop (cfg : Params) : Nat → State → State
  | 0, s => s
  | fuel + 1, s =>
    match frameStep s.buf with
    | .idle => s
    | .wait => s
    | .extract h p => framingLoop cfg fuel (handlePacket cfg p (bufDropFront (h + p.length) s))

/-- `RunFraming()` (R153), run to quiescence. Each pass that goes on removes at least 5 bytes, so |BUF| passes are enough and
the bound is never what ends the loop. -/
def runFraming (cfg : Params) (s : State) : State := framingLoop cfg s.buf.length s

end Sys2Proof.Machine
end

