-- ==== Sys2Proof/Machine/Registers.lean ====
section
/-! DEFINITION. The register map read by RDREG (10_state.md R28, R29) and the weight value derived from SCALE (R25). -/

namespace Sys2Proof.Machine

/-- The value of a register, zero-extended to 32 bits (R29). Reading changes no state (20_memory.md R68). -/
def regValue (r : Reg) (s : State) : Word32 :=
  match r with
  | .status => (BitVec.ofBool (framing s.buf)).setWidth 32
  | .ctrl => (modeBits s.cksumMode).setWidth 32
  | .errcnt => s.errcnt
  | .buflevel => (BitVec.ofNat 16 s.buf.length).setWidth 32
  | .wmag => s.scale.wMag.setWidth 32
  | .wdiv => s.scale.wDiv.setWidth 32
  | .wflags => (wflagsBits s.scale).setWidth 32
  | .battery => s.scale.battery.setWidth 32
  | .tmrmin => s.scale.tmrMin.setWidth 32
  | .tmrsec => s.scale.tmrSec.setWidth 32
  | .tmrms => s.scale.tmrMs.setWidth 32

/-- `weight_value = (W_NEG = 1 ? -1 : 1) * W_MAG / 10^W_DIV`, exact and not stored (R25). -/
def weightValue (sc : Scale) : ℚ :=
  (if sc.wNeg then -1 else 1) * (sc.wMag.toNat : ℚ) / (10 : ℚ) ^ sc.wDiv.toNat

end Sys2Proof.Machine
end

