-- ==== Sys2Proof/Machine/Commands.lean ====
section
/-! DEFINITION. The host commands (45_commands.md), one meaning for each, over a parameter set where one is read. Every command
completes: none faults and none is refused (60_exceptions.md R260). -/

namespace Sys2Proof.Machine

/-- Illegal(w) (R236): LOG(ILLEGAL_CMD, w) and no other effect. -/
def illegalCommand (w : Word16) (s : State) : State := log .illegalCmd w s

/-- Push(b) (R231) under a parameter set. -/
def push (cfg : Params) (b : Byte) (s : State) : State := runFraming cfg (bufAppend cfg b s)

/-- SoftReset() (R233): BUF emptied and SCALE zeroed; ERRCNT and CKSUM_MODE kept, nothing emitted. -/
def softReset (s : State) : State := { s with buf := [], scale := Scale.zero }

/-- SetMode(m) (R234). -/
def setMode (k : CksumMode) (s : State) : State := { s with cksumMode := k }

/-- ReadReg(r) (R235): the reply carries the register's number and value (30_encoding.md R100). -/
def readReg (r : Reg) (s : State) : State := emit (.rsp (regNumber r) (regValue r s)) s

/-- PUSH b. -/
def execPush (b : Byte) (s : State) : Host.Outcome State Fault Refusal := .next (push Config.params b s)

/-- RESET. -/
def execReset (s : State) : Host.Outcome State Fault Refusal := .next (softReset s)

/-- SETMODE m. A data byte 3 or above makes the word illegal (R234, R236), and the decoder never gives it. -/
def execSetmode (m : Byte) (s : State) : Host.Outcome State Fault Refusal :=
  match modeOfByte m with
  | some k => .next (setMode k s)
  | none => .next (illegalCommand (encode (.setmode m)) s)

/-- RDREG r. A data byte 0x0B or above makes the word illegal (R235, R236), and the decoder never gives it. -/
def execRdreg (r : Byte) (s : State) : Host.Outcome State Fault Refusal :=
  match regOfByte r with
  | some x => .next (readReg x s)
  | none => .next (illegalCommand (encode (.rdreg r)) s)

/-- A word the decoder rejects, performed (R230, R236). -/
def execIllegal (w : Word16) (s : State) : Host.Outcome State Fault Refusal := .next (illegalCommand w s)

/-- No command on the port (60_exceptions.md R273). -/
def execIdle (s : State) : Host.Outcome State Fault Refusal := .next (idle s)

/-- PUSHN b0, …, bk-1 (R232): the PUSHes in order. -/
def pushAll (cfg : Params) (bs : List Byte) (s : State) : State := bs.foldl (fun s b => push cfg b s) s

end Sys2Proof.Machine
end

