-- ==== Sys2Proof/Machine/Step.lean ====
section
/-! DEFINITION. One step of the block (45_commands.md R230): the next command word on the port is taken off it and performed
whole (00_scope.md R12). -/

namespace Sys2Proof.Machine

/-- `Step(w)` of R230 for the next word on the command port; with none there, nothing happens (60_exceptions.md R273). -/
def step (s : State) : Host.Outcome State Fault Refusal :=
  match fetch s with
  | none => execIdle s
  | some (w, s') =>
    match decode w with
    | .legal i => exec i s'
    | .illegal _ => execIllegal w s'

/-- The instruction with bits w issued on the command port ahead of every word already waiting there, so that the next step
performs it (assumption log 2). The block fetches nothing from a memory (20_memory.md R74). -/
def State.withFetchWord (s : State) (nbits w : Nat) : State :=
  { s with cmds := BitVec.ofNat 16 (w % 2 ^ nbits) :: s.cmds }

end Sys2Proof.Machine
end

