-- ==== Sys2Proof/Machine/Assembly.lean ====
section
/-! DEFINITION. The assembler syntax of 30_encoding.md R85: which line a mnemonic and its operands make, and the command words the
line stands for. A line comes in as its mnemonic's letters and its operands; how a numeral is spelled and how operands are
separated is not in the spec (assumption log 10). -/

namespace Sys2Proof.Machine

/-- A line of the assembler syntax of R85. -/
inductive AsmLine where
  /-- `PUSH <byte>` -/
  | push (b : Byte)
  /-- `RESET` -/
  | reset
  /-- `SETMODE SPLIT`, `SETMODE SUM_TAILS`, `SETMODE SUM_LAST` -/
  | setmode (k : CksumMode)
  /-- `RDREG <name>` -/
  | rdreg (r : Reg)
  /-- `.word <16-bit>`, which is how an illegal word is written -/
  | word (w : Word16)
  /-- `PUSHN b0, b1, …, bk-1` -/
  | pushn (bs : List Byte)
deriving DecidableEq, Repr

/-- An operand of an assembler line: a number or a name. -/
inductive AsmOperand where
  | num (n : Nat)
  | name (s : List Char)
deriving DecidableEq, Repr

/-- The name R85 gives a checksum variant. -/
def modeName : CksumMode → List Char
  | .split => "SPLIT".toList
  | .sumTails => "SUM_TAILS".toList
  | .sumLast => "SUM_LAST".toList

/-- The name of a register (10_state.md R28). -/
def regName : Reg → List Char
  | .status => "STATUS".toList
  | .ctrl => "CTRL".toList
  | .errcnt => "ERRCNT".toList
  | .buflevel => "BUFLEVEL".toList
  | .wmag => "WMAG".toList
  | .wdiv => "WDIV".toList
  | .wflags => "WFLAGS".toList
  | .battery => "BATTERY".toList
  | .tmrmin => "TMRMIN".toList
  | .tmrsec => "TMRSEC".toList
  | .tmrms => "TMRMS".toList

/-- A byte operand. -/
def asmByte : AsmOperand → Option Byte
  | .num n => if n < 2 ^ 8 then some (BitVec.ofNat 8 n) else none
  | .name _ => none

/-- The operand of SETMODE: a variant's name, or 0..2 (R85). -/
def asmMode : AsmOperand → Option CksumMode
  | .num n => if n < 2 ^ 8 then modeOfByte (BitVec.ofNat 8 n) else none
  | .name s => [CksumMode.split, .sumTails, .sumLast].find? fun k => modeName k == s

/-- The operand of RDREG: a register's name or number (R85). -/
def asmReg : AsmOperand → Option Reg
  | .num n => if n < 2 ^ 8 then regOfByte (BitVec.ofNat 8 n) else none
  | .name s => allRegs.find? fun x => regName x == s

/-- The operand of `.word` (R85). -/
def asmWord : AsmOperand → Option Word16
  | .num n => if n < 2 ^ 16 then some (BitVec.ofNat 16 n) else none
  | .name _ => none

/-- The operand of a line that takes exactly one. -/
def asmOne {α : Type} (f : AsmOperand → Option α) : List AsmOperand → Option α
  | [x] => f x
  | _ => none

/-- The line a mnemonic, in any letter case, and its operands make (R85); none for anything else, which is
no line of the syntax (assumption log 10). -/
def readLine (mnemonic : List Char) (ops : List AsmOperand) : Option AsmLine :=
  let mn := mnemonic.map Char.toUpper
  if mn = "PUSH".toList then (asmOne asmByte ops).map .push
  else if mn = "RESET".toList then if ops = [] then some .reset else none
  else if mn = "SETMODE".toList then (asmOne asmMode ops).map .setmode
  else if mn = "RDREG".toList then (asmOne asmReg ops).map .rdreg
  else if mn = ".WORD".toList then (asmOne asmWord ops).map .word
  else if mn = "PUSHN".toList then (ops.mapM asmByte).map .pushn
  else none

/-- The words of one line (R85). An empty PUSHN expands to nothing. -/
def assembleLine : AsmLine → List Word16
  | .push b => [encode (.push b)]
  | .reset => [encode .reset]
  | .setmode k => [encode (.setmode ((modeBits k).setWidth 8))]
  | .rdreg r => [encode (.rdreg (regNumber r))]
  | .word w => [w]
  | .pushn bs => (pushN bs).map encode

/-- The words of a program, one line after another. -/
def assemble (ls : List AsmLine) : List Word16 := ls.flatMap assembleLine

end Sys2Proof.Machine
end

