-- ==== Sys2Proof/Safety.lean ====
section
/-! DEFINITION. The terms claims are made in: what holds of the state between commands, and the command step of
45_commands.md R230 as a function of the parameters, over the block's bounded buffer and over the source's unbounded one. No
step of this block stops (60_exceptions.md R260), so a run is safe when it keeps `Inv`. -/

namespace Sys2Proof.Safety

open Sys2Proof.Machine

/-- A marker pair EF DD stands at index i of m, both bytes present (40_header_scanner.md R120). -/
def PairAt (m : List Byte) (i : Nat) : Prop := m[i]? = some 0xEF ∧ m[i + 1]? = some 0xDD

/-- What holds of the buffer between commands: it is within capacity (10_state.md R21) and holds no complete packet
(10_state.md R26, 42_frame_assembler.md R153). -/
def Inv (cfg : Params) (s : State) : Prop := Memory.wf cfg s.buf = true ∧ quiescent s.buf = true

/-- The bytes BUF holds right after PUSH b has appended its byte and before framing: at capacity the oldest byte is gone
(20_memory.md R64). -/
def appended (cfg : Params) (b : Byte) (m : Memory) : Memory :=
  (if m.length = cfg.bufCap then m.drop 1 else m) ++ [b]

/-- p is laid out as one packet: EF DD, a message type, and a length byte N at offset 3 with |p| = N + 5
(30_encoding.md R87). -/
def Framed (p : List Byte) : Prop :=
  p[0]? = some 0xEF ∧ p[1]? = some 0xDD ∧ ∃ n : Byte, p[3]? = some n ∧ p.length = n.toNat + 5

/-- k steps of the block, stopping at the first fault or refusal. It is `Host.Core.run core` (`run_eq_core_run`), over the
model's own state type. -/
def run : Nat → State → Host.Outcome State Fault Refusal
  | 0, s => .next s
  | k + 1, s =>
    match step s with
    | .next t => run k t
    | .fault r => .fault r
    | .refused r => .refused r

/-- Append with no capacity, as the source's buffer grows (91_not_in_source.md N6). -/
def appendUnbounded (b : Byte) (s : State) : State := { s with buf := s.buf ++ [b] }

/-- Step(w) of R230, with the way a byte enters BUF as an argument. -/
def performWith (append : Byte → State → State) (cfg : Params) (w : Word16) (s : State) : State :=
  match decode w with
  | .legal (.push b) => runFraming cfg (append b s)
  | .legal .reset => softReset s
  | .legal (.setmode m) =>
    match modeOfByte m with
    | some k => setMode k s
    | none => illegalCommand w s
  | .legal (.rdreg r) =>
    match regOfByte r with
    | some x => readReg x s
    | none => illegalCommand w s
  | .illegal _ => illegalCommand w s

/-- Step(w) of the block. -/
def perform (cfg : Params) : Word16 → State → State := performWith (bufAppend cfg) cfg

/-- Step(w) of the source's block, whose buffer has no capacity (42_frame_assembler.md R157). -/
def performUnbounded (cfg : Params) : Word16 → State → State := performWith appendUnbounded cfg

/-- An output event with the value of a BUFLEVEL reply blanked: R157 says that only BUFLEVEL can differ. -/
def hideLevel : OutEvent → OutEvent
  | .rsp r v => .rsp r (if r = regNumber .buflevel then 0 else v)
  | .pkt k p => .pkt k p
  | .meas m => .meas m
  | .log c a => .log c a

/-- A CKSUM_ERR event (60_exceptions.md R261). -/
def isCksumErr : OutEvent → Bool
  | .log .cksumErr _ => true
  | .log _ _ => false
  | .pkt _ _ => false
  | .meas _ => false
  | .rsp _ _ => false

/-- The packets reported in a stretch of output, in order. -/
def packetsOf : List OutEvent → List (List Byte)
  | [] => []
  | .pkt _ p :: es => p :: packetsOf es
  | .log _ _ :: es => packetsOf es
  | .meas _ :: es => packetsOf es
  | .rsp _ _ :: es => packetsOf es

/-- One event record as it stands in the event region: the type byte t and its body (30_encoding.md R90). -/
abbrev Record := Byte × List Byte

/-- The bytes of a sequence of records. -/
def recordBytes (rs : List Record) : List Byte := rs.flatMap fun r => r.1 :: r.2

/-- Every record has a known type and a body of that type's length (30_encoding.md R91). -/
def RecordsOK (cfg : Params) (rs : List Record) : Prop :=
  ∀ r ∈ rs, evlen cfg r.1 = some r.2.length

/-- Decoding a sequence of well-formed records: each is applied at once, in order (44_event_decoder.md R204). -/
def applyRecords (cfg : Params) (rs : List Record) (s : State) : State :=
  rs.foldl (fun s r => match evKind cfg r.1 with
    | some k => applyEvent cfg k r.2 s
    | none => s) s

end Sys2Proof.Safety
end

