-- ==== Sys2Proof/Certificates/Slice0/Obligations.lean ====
section
/-! DEFINITION. The statements for the provers, in the order of the spec's files. A statement over every `cfg : Params` holds
whatever legal values the OPEN parameters have; one about `exec` or `step` is about this block, whose parameters are
`Config.params`. "next" is the only outcome of a step of this block (60_exceptions.md R260). -/

open Sys2Proof Sys2Proof.Machine Sys2Proof.Safety

/-! ## Encodings (30_encoding.md) -/

/-- R84: the decoding procedure, over OP = w / 256 and D = w mod 256. -/
def Obligations.DecodeFollowsProcedure : Prop :=
  ∀ w : Word16,
    let op := w.toNat / 256
    let d := w.toNat % 256
    (op = 1 → decode w = .legal (.push (BitVec.ofNat 8 d))) ∧
    (op = 2 ∧ d = 0 → decode w = .legal .reset) ∧
    (op = 3 ∧ d ≤ 2 → decode w = .legal (.setmode (BitVec.ofNat 8 d))) ∧
    (op = 4 ∧ d ≤ 10 → decode w = .legal (.rdreg (BitVec.ofNat 8 d))) ∧
    (¬ op = 1 ∧ ¬ (op = 2 ∧ d = 0) ∧ ¬ (op = 3 ∧ d ≤ 2) ∧ ¬ (op = 4 ∧ d ≤ 10) →
      ∃ why, decode w = .illegal why)

/-- R82, R84: a word decodes to an instruction exactly when it is that well-formed instruction's encoding. -/
def Obligations.DecodeEncodeAgree : Prop :=
  ∀ (w : Word16) (i : Instr), decode w = .legal i ↔ (i.wellFormed = true ∧ encode i = w)

/-- R83, R236: which words are illegal, in the five cases of R83, and that performing one logs it and changes nothing else. -/
def Obligations.IllegalWordsAreLogged : Prop :=
  ∀ w : Word16,
    let op := w.toNat / 256
    let d := w.toNat % 256
    ((∃ why, decode w = .illegal why) ↔
      (op = 0 ∨ 5 ≤ op ∨ (op = 2 ∧ d ≠ 0) ∨ (op = 3 ∧ 3 ≤ d) ∨ (op = 4 ∧ 11 ≤ d))) ∧
    ((∃ why, decode w = .illegal why) → ∀ (cfg : Params) (s : State),
      perform cfg w s = { s with out := s.out ++ [.log .illegalCmd w] } ∧
      execIllegal w s = .next { s with out := s.out ++ [.log .illegalCmd w] })

/-- R82: a few words written out from the opcode map. -/
def Obligations.WrittenWordsDecode : Prop :=
  decode 0x01EF = .legal (.push 0xEF) ∧ decode 0x0200 = .legal .reset ∧
  decode 0x0302 = .legal (.setmode 0x02) ∧ decode 0x040A = .legal (.rdreg 0x0A) ∧
  decode 0x0303 = .illegal .modeReserved ∧ decode 0x0201 = .illegal .resetOperand ∧
  decode 0x040B = .illegal .registerUnassigned ∧ decode 0x0000 = .illegal .opcodeZero ∧
  decode 0x0500 = .illegal .opcodeUnassigned

/-- A well-formed instruction's word, numbered as the opcode table numbers it, is read back by `decodeTableWord`, and issued
with `withFetchWord` it is what the next step performs. How a command reaches the block is the model's choice (log entry 2). -/
def Obligations.IssuedTableWordRunsNext : Prop :=
  ∀ (i : Instr) (s : State), i.wellFormed = true →
    decodeTableWord 16 (encode i).toNat = some i ∧
    step (s.withFetchWord 16 (encode i).toNat) = exec i s

/-- Exactly which mnemonic and operands make a line, and which line. From R85: the six mnemonics in any letter case, with a byte, no
operand, a variant's name or 0..2, a register's name or number, a raw word, and a list of bytes. That nothing else makes a line is
the model's choice (log entry 10): no other mnemonic, no missing or spare operand, no name in another letter case, and no number
above its operand's range, an unassigned register number among them. -/
def Obligations.AssemblerReadsLines : Prop :=
  ∀ (mnemonic : List Char) (ops : List AsmOperand) (l : AsmLine),
    let mn := mnemonic.map Char.toUpper
    readLine mnemonic ops = some l ↔
      (mn = "PUSH".toList ∧ ∃ b : Byte, ops = [.num b.toNat] ∧ l = .push b) ∨
      (mn = "RESET".toList ∧ ops = [] ∧ l = .reset) ∨
      (mn = "SETMODE".toList ∧ ∃ k : CksumMode,
        (ops = [.name (modeName k)] ∨ ops = [.num (modeBits k).toNat]) ∧ l = .setmode k) ∨
      (mn = "RDREG".toList ∧ ∃ x : Reg,
        (ops = [.name (regName x)] ∨ ops = [.num (regNumber x).toNat]) ∧ l = .rdreg x) ∨
      (mn = ".WORD".toList ∧ ∃ w : Word16, ops = [.num w.toNat] ∧ l = .word w) ∨
      (mn = "PUSHN".toList ∧ ∃ bs : List Byte, ops = bs.map (fun b => .num b.toNat) ∧ l = .pushn bs)

/-- R85: the words an assembler line stands for. -/
def Obligations.AssemblerLinesEncode : Prop :=
  (∀ b : Byte, assembleLine (.push b) = [BitVec.ofNat 16 (0x0100 + b.toNat)]) ∧
  assembleLine .reset = [0x0200] ∧
  [CksumMode.split, .sumTails, .sumLast].map (fun k => assembleLine (.setmode k)) = [[0x0300], [0x0301], [0x0302]] ∧
  allRegs.map (fun r => assembleLine (.rdreg r)) = [[0x0400], [0x0401], [0x0402], [0x0403], [0x0404], [0x0405],
    [0x0406], [0x0407], [0x0408], [0x0409], [0x040A]] ∧
  (∀ w : Word16, assembleLine (.word w) = [w]) ∧
  assembleLine (.pushn []) = [] ∧
  ∀ (b : Byte) (bs : List Byte), assembleLine (.pushn (b :: bs)) = assembleLine (.push b) ++ assembleLine (.pushn bs)

/-! ## The step (45_commands.md R230) -/

/-- A step performs the word at the head of the command port: where it decodes to an instruction, `exec` of that instruction on
the state with the word taken off the port; where it is illegal, the illegal command. That the port is a queue in the state is
the model's choice (log entry 2). -/
def Obligations.StepRunsDecodedInstruction : Prop :=
  ∀ (s : State) (w : Word16) (rest : List Word16), s.cmds = w :: rest →
    (∀ i, decode w = .legal i → step s = exec i { s with cmds := rest }) ∧
    (∀ why, decode w = .illegal why → step s = execIllegal w { s with cmds := rest })

/-- With no command on the port a step keeps all state (R273). That such a step is a step at all is the model's choice (log
entry 2). -/
def Obligations.IdleStepKeepsState : Prop :=
  ∀ s : State, s.cmds = [] → step s = .next s

/-- R260: every instruction completes in every state, and so does every step. Three things in it are the model's choice: that an
ill-formed SETMODE or RDREG completes as the illegal word does (log entry 4), that commands wait on a port in the state, which no
instruction touches, and that a step with none waiting is an idle step (both log entry 2). -/
def Obligations.EveryCommandCompletes : Prop :=
  (∀ (i : Instr) (s : State), ∃ t, exec i s = .next t ∧ t.cmds = s.cmds) ∧
  (∀ s : State, ∃ t, step s = .next t)

/-- R66, R71, R230: a sequence of commands is performed one after another, each completely, in issue order. -/
def Obligations.RunPerformsCommandsInOrder : Prop :=
  ∀ (s : State) (ws rest : List Word16),
    run ws.length { s with cmds := ws ++ rest } =
      .next { ws.foldl (fun t w => perform Config.params w t) s with cmds := rest }

/-- R85, R232: a PUSHN line's words are performed as the PUSHes of its bytes, in order. -/
def Obligations.PushnIsItsPushes : Prop :=
  ∀ (s : State) (bs : List Byte) (rest : List Word16),
    run bs.length { s with cmds := assembleLine (.pushn bs) ++ rest } =
      .next { pushAll Config.params bs s with cmds := rest }

/-! ## RESET, SETMODE, RDREG (45_commands.md) -/

/-- R291: RESET empties BUF and zeroes every SCALE field; ERRCNT, CKSUM_MODE, OUT and the port are unchanged, and FRAMING and
BUFLEVEL read 0 afterwards. -/
def Obligations.ResetClearsSession : Prop :=
  ∀ s : State,
    let t : State := { s with
      buf := []
      scale := { wMag := 0, wDiv := 0, wNeg := false, wStable := false, wUnit := .noUnit, battery := 0,
                 tmrMin := 0, tmrSec := 0, tmrMs := 0 } }
    exec .reset s = .next t ∧ regValue .status t = 0 ∧ regValue .buflevel t = 0

/-- R23, R234: SETMODE with 0, 1, 2 selects SPLIT, SUM_TAILS, SUM_LAST and writes nothing else, and CTRL then reads the number
written. -/
def Obligations.SetmodeSelectsVariant : Prop :=
  ∀ (s : State) (m : Byte) (k : CksumMode),
    (m, k) ∈ [((0 : Byte), CksumMode.split), (1, .sumTails), (2, .sumLast)] →
      exec (.setmode m) s = .next { s with cksumMode := k } ∧
      regValue .ctrl { s with cksumMode := k } = m.setWidth 32

/-- SETMODE and RDREG with a data byte outside their legal range have the effect R236 gives the illegal word, in every state. No
decoded word gives such an instruction; that `exec` takes it so is the model's choice (log entry 4). -/
def Obligations.IllegalOperandsAreLogged : Prop :=
  ∀ (s : State) (d : Byte),
    (3 ≤ d.toNat → exec (.setmode d) s =
      .next { s with out := s.out ++ [.log .illegalCmd (BitVec.ofNat 16 (0x0300 + d.toNat))] }) ∧
    (11 ≤ d.toNat → exec (.rdreg d) s =
      .next { s with out := s.out ++ [.log .illegalCmd (BitVec.ofNat 16 (0x0400 + d.toNat))] })

/-- R29, R100: RDREG of each of the eleven registers emits RSP with the register's number and its value, and changes nothing
else. -/
def Obligations.RdregRepliesWithRegister : Prop :=
  ∀ s : State,
    let reply (r : Byte) (v : Nat) : Host.Outcome State Fault Refusal :=
      .next { s with out := s.out ++ [.rsp r (BitVec.ofNat 32 v)] }
    let modeNumber : Nat := match s.cksumMode with | .split => 0 | .sumTails => 1 | .sumLast => 2
    let unitNumber : Nat := match s.scale.wUnit with | .noUnit => 0 | .grams => 1 | .ounces => 2
    exec (.rdreg 0x00) s = reply 0x00 (if (headerScan s.buf 0).isSome then 1 else 0) ∧
    exec (.rdreg 0x01) s = reply 0x01 modeNumber ∧
    exec (.rdreg 0x02) s = reply 0x02 s.errcnt.toNat ∧
    (s.buf.length ≤ Config.params.bufCap → exec (.rdreg 0x03) s = reply 0x03 s.buf.length) ∧
    exec (.rdreg 0x04) s = reply 0x04 s.scale.wMag.toNat ∧
    exec (.rdreg 0x05) s = reply 0x05 s.scale.wDiv.toNat ∧
    exec (.rdreg 0x06) s =
      reply 0x06 (4 * unitNumber + 2 * s.scale.wStable.toNat + s.scale.wNeg.toNat) ∧
    exec (.rdreg 0x07) s = reply 0x07 s.scale.battery.toNat ∧
    exec (.rdreg 0x08) s = reply 0x08 s.scale.tmrMin.toNat ∧
    exec (.rdreg 0x09) s = reply 0x09 s.scale.tmrSec.toNat ∧
    exec (.rdreg 0x0A) s = reply 0x0A s.scale.tmrMs.toNat

/-- R68: a read changes no state but OUT, and reading the same register again gives the same value. -/
def Obligations.ReadsHaveNoSideEffect : Prop :=
  ∀ (s : State) (r : Byte), r.toNat ≤ 10 →
    ∃ v, exec (.rdreg r) s = .next { s with out := s.out ++ [.rsp r v] } ∧
      exec (.rdreg r) { s with out := s.out ++ [.rsp r v] } =
        .next { s with out := s.out ++ [.rsp r v, .rsp r v] }

/-! ## State (10_state.md) and reset (70_reset_and_hazards.md) -/

/-- R290: the value of each piece of the spec's state after power-on reset; every register reads 0; any command is accepted. -/
def Obligations.PowerOnValues : Prop :=
  State.reset.buf = [] ∧ State.reset.errcnt = 0 ∧ State.reset.cksumMode = .split ∧
  State.reset.scale.wMag = 0 ∧ State.reset.scale.wDiv = 0 ∧ State.reset.scale.wNeg = false ∧
  State.reset.scale.wStable = false ∧ State.reset.scale.wUnit = .noUnit ∧ State.reset.scale.battery = 0 ∧
  State.reset.scale.tmrMin = 0 ∧ State.reset.scale.tmrSec = 0 ∧ State.reset.scale.tmrMs = 0 ∧
  State.reset.out = [] ∧ (∀ r ∈ allRegs, regValue r State.reset = 0) ∧
  ∀ i : Instr, ∃ t, exec i State.reset = .next t

/-- R25: the weight value is the signed magnitude divided by ten to the divisor byte; it is 0 for magnitude 0, and W_NEG still
reads 1 then. -/
def Obligations.WeightValueIsScaledMagnitude : Prop :=
  ∀ sc : Scale,
    weightValue sc * (10 : ℚ) ^ sc.wDiv.toNat = (if sc.wNeg = true then -1 else 1) * (sc.wMag.toNat : ℚ) ∧
    (sc.wMag = 0 → weightValue sc = 0) ∧
    (sc.wNeg = true → (wflagsBits sc).getLsbD 0 = true)

/-- R26: between commands STATUS reads 1 exactly when the first marker pair's packet is incomplete, and 0 exactly when BUF holds
no marker pair. -/
def Obligations.FramingStatusMeaning : Prop :=
  ∀ s : State, quiescent s.buf = true →
    (regValue .status s = 1 ↔ frameStep s.buf = .wait) ∧
    (regValue .status s = 0 ↔ ∀ i, ¬ PairAt s.buf i)

/-- R22, R261: over any step ERRCNT grows by the number of CKSUM_ERR events the step emits, saturating at 2^32 - 1; so it never
decreases. -/
def Obligations.ErrcntCountsChecksumErrors : Prop :=
  ∀ s t : State, step s = .next t →
    ∃ es, t.out = s.out ++ es ∧
      t.errcnt.toNat = min (2 ^ 32 - 1) (s.errcnt.toNat + es.countP isCksumErr)

/-- R30: a step only appends to OUT, and what it appends and everything else it does are the same whatever OUT held. -/
def Obligations.OutIsWrittenAndNeverRead : Prop :=
  ∀ s t : State, step s = .next t →
    ∃ es, t.out = s.out ++ es ∧
      ∀ o : List OutEvent, step { s with out := o } = .next { t with out := o ++ es }

/-- R31: what each command leaves unchanged. PUSH leaves CKSUM_MODE; RESET leaves ERRCNT, CKSUM_MODE and OUT; SETMODE leaves all
but CKSUM_MODE; RDREG leaves all but OUT; none touches the port. -/
def Obligations.CommandFrames : Prop :=
  ∀ s t : State,
    (∀ b, exec (.push b) s = .next t → t.cksumMode = s.cksumMode ∧ t.cmds = s.cmds ∧ s.out <+: t.out) ∧
    (exec .reset s = .next t →
      t.errcnt = s.errcnt ∧ t.cksumMode = s.cksumMode ∧ t.out = s.out ∧ t.cmds = s.cmds) ∧
    (∀ m, m.toNat ≤ 2 → exec (.setmode m) s = .next t →
      t.buf = s.buf ∧ t.errcnt = s.errcnt ∧ t.scale = s.scale ∧ t.out = s.out ∧ t.cmds = s.cmds) ∧
    (∀ r, exec (.rdreg r) s = .next t →
      t.buf = s.buf ∧ t.errcnt = s.errcnt ∧ t.cksumMode = s.cksumMode ∧ t.scale = s.scale ∧ t.cmds = s.cmds)

/-- R23: the checksum variant changes only when the step performs a SETMODE word of a legal mode, and to that mode. -/
def Obligations.OnlySetmodeChangesVariant : Prop :=
  ∀ s t : State, step s = .next t → t.cksumMode ≠ s.cksumMode →
    ∃ (m : Byte) (rest : List Word16), m.toNat ≤ 2 ∧ s.cmds = encode (.setmode m) :: rest ∧
      modeOfByte m = some t.cksumMode

/-- R21, R153: every step keeps BUF within capacity and quiescent. -/
def Obligations.StepKeepsInvariant : Prop :=
  ∀ s t : State, Inv Config.params s → step s = .next t → Inv Config.params t

/-- R21, R290: the state after reset meets the invariant. -/
def Obligations.ResetMeetsInvariant : Prop := Inv Config.params State.reset

/-! ## The header scanner (40_header_scanner.md) -/

/-- R120: the least index at or after start with a marker pair, or not found when there is none. -/
def Obligations.HeaderScanFindsLeastPair : Prop :=
  ∀ (m : List Byte) (start : Nat),
    (∀ i, headerScan m start = some i ↔
      (start ≤ i ∧ PairAt m i ∧ ∀ j, start ≤ j → j < i → ¬ PairAt m j)) ∧
    (headerScan m start = none ↔ ∀ i, start ≤ i → ¬ PairAt m i)

/-- R121: a trailing M1 is not a header, the buffer stays idle, and a later M2 completes the pair. -/
def Obligations.TrailingMarkerIsNotHeader : Prop :=
  ∀ m : List Byte, headerScan m 0 = none →
    headerScan (m ++ [0xEF]) 0 = none ∧ frameStep (m ++ [0xEF]) = .idle ∧
    headerScan (m ++ [0xEF, 0xDD]) 0 = some m.length

/-- R122: an M1 followed by any byte but M2 is no header, wherever it stands, and scanning goes on at that byte. -/
def Obligations.IsolatedMarkerIsSkipped : Prop :=
  ∀ (m : List Byte) (i : Nat), m[i]? = some 0xEF → m[i + 1]? ≠ some 0xDD →
    (∀ start, headerScan m start ≠ some i) ∧ headerScan m i = headerScan m (i + 1)

/-! ## The checksum validator (41_checksum.md) -/

/-- R130 to R133: what each variant accepts, as sums over the packet's offsets; a packet below 5 bytes is invalid. -/
def Obligations.ValidateComputesChecksums : Prop :=
  ∀ p : List Byte,
    let at_ (i : Nat) : Nat := (p.getD i 0).toNat
    let n := p.length - 5
    let even := ∑ i ∈ Finset.range n, if i % 2 = 0 then at_ (3 + i) else 0
    let odd := ∑ i ∈ Finset.range n, if i % 2 = 1 then at_ (3 + i) else 0
    let all := ∑ i ∈ Finset.range n, at_ (3 + i)
    let c0 := at_ (p.length - 2)
    let c1 := at_ (p.length - 1)
    (p.length < 5 → ∀ mode, validate p mode = false) ∧
    (5 ≤ p.length →
      (validate p .split = true ↔ even % 256 = c0 ∧ odd % 256 = c1) ∧
      (validate p .sumTails = true ↔ all % 256 = (c0 + c1) % 256) ∧
      (validate p .sumLast = true ↔ all % 256 = c1))

/-- R135: the three variants on a packet with an empty payload. -/
def Obligations.EmptyPayloadChecksums : Prop :=
  ∀ a b t c0 c1 : Byte,
    (validate [a, b, t, c0, c1] .split = true ↔ c0 = 0 ∧ c1 = 0) ∧
    (validate [a, b, t, c0, c1] .sumTails = true ↔ c0 + c1 = 0) ∧
    (validate [a, b, t, c0, c1] .sumLast = true ↔ c1 = 0)

/-- R136: every variant detects every change of one byte of the checksum region; SPLIT also detects a change of one tail byte. -/
def Obligations.SingleByteChangeDetected : Prop :=
  ∀ (p : List Byte) (i : Nat) (b : Byte), 5 ≤ p.length → b ≠ p.getD i 0 →
    (∀ mode, 3 ≤ i → i < p.length - 2 → validate p mode = true → validate (p.set i b) mode = false) ∧
    (p.length - 2 ≤ i → i < p.length → validate p .split = true → validate (p.set i b) .split = false)

/-- R136: what no variant, or not every variant, detects: the markers and the message type; C0 under SUM_LAST; a change of the
tail that keeps its sum under SUM_TAILS. -/
def Obligations.UndetectedByteChanges : Prop :=
  ∀ (p : List Byte) (b b' : Byte), 5 ≤ p.length →
    (∀ mode i, i < 3 → validate (p.set i b) mode = validate p mode) ∧
    validate (p.set (p.length - 2) b) .sumLast = validate p .sumLast ∧
    (b + b' = p.getD (p.length - 2) 0 + p.getD (p.length - 1) 0 →
      validate ((p.set (p.length - 2) b).set (p.length - 1) b') .sumTails = validate p .sumTails)

/-- R136: SUM_TAILS and SUM_LAST miss every permutation of the checksum region, and SPLIT misses a swap of two bytes at positions
of the same parity. -/
def Obligations.UndetectedPermutations : Prop :=
  ∀ (hd P : List Byte) (c0 c1 : Byte), hd.length = 3 →
    (∀ Q : List Byte, P.Perm Q →
      validate (hd ++ P ++ [c0, c1]) .sumTails = validate (hd ++ Q ++ [c0, c1]) .sumTails ∧
      validate (hd ++ P ++ [c0, c1]) .sumLast = validate (hd ++ Q ++ [c0, c1]) .sumLast) ∧
    (∀ i j, i < P.length → j < P.length → i % 2 = j % 2 →
      validate (hd ++ (P.set i (P.getD j 0)).set j (P.getD i 0) ++ [c0, c1]) .split =
        validate (hd ++ P ++ [c0, c1]) .split)

/-- R137: a payload of 0 to 255 bytes, led by its own length when it is not empty, closed with its even and odd sums, is accepted
by SPLIT; and the framer takes it whole. -/
def Obligations.SplitRoundTrip : Prop :=
  ∀ (t : Byte) (P : List Byte), P.length ≤ 255 → (P ≠ [] → (P.getD 0 0).toNat = P.length) →
    let even := ∑ i ∈ Finset.range P.length, if i % 2 = 0 then (P.getD i 0).toNat else 0
    let odd := ∑ i ∈ Finset.range P.length, if i % 2 = 1 then (P.getD i 0).toNat else 0
    let p := [0xEF, 0xDD, t] ++ P ++ [BitVec.ofNat 8 even, BitVec.ofNat 8 odd]
    validate p .split = true ∧ frameStep p = .extract 0 p

/-! ## The frame assembler (42_frame_assembler.md) -/

/-- R150: when FrameStep is IDLE, when it is WAIT, and what it extracts. -/
def Obligations.FrameStepClassifiesBuffer : Prop :=
  ∀ m : Memory,
    (frameStep m = .idle ↔ headerScan m 0 = none) ∧
    (frameStep m = .wait ↔ ∃ h, headerScan m 0 = some h ∧
      (m.length < h + 4 ∨ ∃ n, m[h + 3]? = some n ∧ m.length < h + n.toNat + 5)) ∧
    (∀ h p, frameStep m = .extract h p ↔ (headerScan m 0 = some h ∧
      ∃ n, m[h + 3]? = some n ∧ h + n.toNat + 5 ≤ m.length ∧ p = (m.drop h).take (n.toNat + 5)))

/-- R8, R88, R151, R155: an extracted packet is laid out as a packet, is 5 to 260 bytes long, and stands in the buffer right after
the noise before it; the noise holds no marker pair. -/
def Obligations.ExtractedPacketIsFramed : Prop :=
  ∀ (m : Memory) (h : Nat) (p : List Byte), frameStep m = .extract h p →
    Framed p ∧ 5 ≤ p.length ∧ p.length ≤ 260 ∧ m = m.take h ++ p ++ m.drop (h + p.length) ∧
    ∀ i < h, ¬ PairAt m i

/-- R153: the framing loop, with no bound on its passes, and that it ends with a quiescent buffer. -/
def Obligations.RunFramingLoops : Prop :=
  ∀ (cfg : Params) (s : State),
    (runFraming cfg s = match frameStep s.buf with
      | .idle => s
      | .wait => s
      | .extract h p => runFraming cfg (handlePacket cfg p { s with buf := s.buf.drop (h + p.length) })) ∧
    quiescent (runFraming cfg s).buf = true

/-- R21, R65, R161: framing only ever removes a prefix of BUF. -/
def Obligations.FramingRemovesPrefix : Prop :=
  ∀ (cfg : Params) (s : State), (runFraming cfg s).buf <:+ s.buf ∧
    (runFraming cfg s).cksumMode = s.cksumMode ∧ (runFraming cfg s).cmds = s.cmds

/-- R64, R231: in every state PUSH appends its byte, the oldest byte going first at capacity, and runs the framing loop. -/
def Obligations.PushAppendsThenFrames : Prop :=
  ∀ (s : State) (b : Byte),
    exec (.push b) s = .next (runFraming Config.params { s with buf := appended Config.params b s.buf })

/-- R154: a PUSH after which no packet is complete keeps every byte, but for the overflow drop, and changes nothing else. -/
def Obligations.PushWithoutPacketRetainsBytes : Prop :=
  ∀ (s : State) (b : Byte), quiescent (appended Config.params b s.buf) = true →
    exec (.push b) s = .next { s with buf := appended Config.params b s.buf }

/-- R158: from a state that meets the invariant, the packet a PUSH completes ends at the byte pushed, it is the only one, and BUF
is empty when it is handled and stays empty. -/
def Obligations.PushCompletesOnePacket : Prop :=
  ∀ (s : State) (b : Byte) (h : Nat) (p : List Byte), Inv Config.params s →
    frameStep (appended Config.params b s.buf) = .extract h p →
      h + p.length = (appended Config.params b s.buf).length ∧
      exec (.push b) s = .next (handlePacket Config.params p { s with buf := [] }) ∧
      (handlePacket Config.params p { s with buf := [] }).buf = []

/-- R152, R261: a completed packet that fails the variant in force is dropped: ERRCNT goes up by one and saturates, one CKSUM_ERR
with the packet's type is logged, and nothing else changes. -/
def Obligations.PushDropsInvalidPacket : Prop :=
  ∀ (s : State) (b : Byte) (h : Nat) (p : List Byte), Inv Config.params s →
    frameStep (appended Config.params b s.buf) = .extract h p → validate p s.cksumMode = false →
      exec (.push b) s = .next { s with
        buf := []
        errcnt := if s.errcnt = 0xFFFFFFFF then 0xFFFFFFFF else s.errcnt + 1
        out := s.out ++ [.log .cksumErr (BitVec.ofNat 16 (p.getD 2 0).toNat)] }

/-- R152, R180, R181, R182: a completed packet that passes is reported, and then a terminal kind does nothing, an unknown kind is
logged, and an EVENT packet's region p[4..L-2) is decoded. It is said of every parameter set, so that each kind occurs, and of
this block's PUSH where the set is `Config.params`. -/
def Obligations.PushReportsValidPacket : Prop :=
  ∀ (cfg : Params) (s : State) (b : Byte) (h : Nat) (p : List Byte), Inv cfg s →
    frameStep (appended cfg b s.buf) = .extract h p → validate p s.cksumMode = true →
      let k := cfg.msgKind (p.getD 2 0)
      let reported : State := { s with buf := [], out := s.out ++ [.pkt k p] }
      let t : State := match k with
        | .event => decodeEvents cfg ((p.drop 4).take (p.length - 6)) reported
        | .unknown => { reported with out := s.out ++ [.pkt k p, .log .unknownMsg (BitVec.ofNat 16 (p.getD 2 0).toNat)] }
        | .sysAck | .tareAck | .info | .status | .identAck | .timerNotice => reported
      push cfg b s = t ∧ (cfg = Config.params → exec (.push b) s = .next t)

/-- R160, and for noise of any kind R122, R150 and R151: from an empty buffer, any noise that holds no marker pair up to the packet's own, of whatever
length, and then a packet, frames exactly that packet and leaves BUF empty. An isolated M1 right before the packet is such
noise, and then exactly that packet is reported if it is valid. -/
def Obligations.NoiseThenPacketFramesPacket : Prop :=
  ∀ (cfg : Params) (s : State) (p : List Byte), s.buf = [] → Framed p →
    (∀ noise : List Byte, headerScan (noise ++ p) 0 = some noise.length →
      pushAll cfg (noise ++ p) s = handlePacket cfg p s ∧ (handlePacket cfg p s).buf = []) ∧
    (validate p s.cksumMode = true →
      ∃ es, (pushAll cfg (0xEF :: p) s).out = s.out ++ es ∧ packetsOf es = [p])

/-- R159: over the source's unbounded buffer, feeding a stream in any chunks gives the state that feeding it in one chunk gives. -/
def Obligations.ChunkingDoesNotMatter : Prop :=
  ∀ (cfg : Params) (s : State) (chunks : List (List Byte)), quiescent s.buf = true →
    chunks.foldl (fun t c => runFraming cfg { t with buf := t.buf ++ c }) s =
      runFraming cfg { s with buf := s.buf ++ chunks.flatten }

/-- R159, R232: pushing a chunk byte by byte gives the state that the source's whole-chunk append and framing loop gives, but for
noise that the block has dropped from the front of BUF and the source still holds: no marker pair begins in it. -/
def Obligations.PushnMatchesChunkFraming : Prop :=
  ∀ (cfg : Params) (s : State) (bs : List Byte), Inv cfg s →
    ∃ noise : List Byte,
      runFraming cfg { s with buf := s.buf ++ bs } = { pushAll cfg bs s with buf := noise ++ (pushAll cfg bs s).buf } ∧
      ∀ i < noise.length, ¬ PairAt (noise ++ (pushAll cfg bs s).buf) i

/-- R157: for every legal BUF_CAP and every command sequence the block, with its bounded buffer, gives the output (but for the
value of BUFLEVEL replies), SCALE and ERRCNT that the source's unbounded buffer gives. -/
def Obligations.BoundedBufferMatchesUnbounded : Prop :=
  ∀ (cfg : Params) (s : State) (ws : List Word16), Inv cfg s →
    let t := ws.foldl (fun v w => perform cfg w v) s
    let u := ws.foldl (fun v w => performUnbounded cfg w v) s
    t.out.map hideLevel = u.out.map hideLevel ∧ t.scale = u.scale ∧ t.errcnt = u.errcnt ∧
    t.cksumMode = u.cksumMode ∧ t.buf <:+ u.buf

/-- R138, R295: bytes that emit nothing commute with a mode change; and when a further byte then completes a packet p, the variant
that decides whether p is reported and dispatched, or counted and logged, is the one in force at that byte, not the one in force
when p's first bytes were pushed. -/
def Obligations.ModeChangeBeforeLastByteApplies : Prop :=
  ∀ (cfg : Params) (s : State) (bs : List Byte) (k : CksumMode),
    (∀ n ≤ bs.length, (pushAll cfg (bs.take n) s).out = s.out) →
      pushAll cfg bs (setMode k s) = setMode k (pushAll cfg bs s) ∧
      ∀ (b : Byte) (h : Nat) (p : List Byte), Inv cfg s →
        frameStep (appended cfg b (pushAll cfg bs s).buf) = .extract h p →
          let taken : State := { pushAll cfg bs s with buf := [], cksumMode := k }
          let handled : State :=
            if validate p k then
              dispatch cfg p { taken with out := s.out ++ [.pkt (cfg.msgKind (p.getD 2 0)) p] }
            else
              { taken with
                errcnt := if taken.errcnt = 0xFFFFFFFF then 0xFFFFFFFF else taken.errcnt + 1
                out := s.out ++ [.log .cksumErr (BitVec.ofNat 16 (p.getD 2 0).toNat)] }
          push cfg b (setMode k (pushAll cfg bs s)) = handled ∧ pushAll cfg (bs ++ [b]) (setMode k s) = handled

/-- R296 and the overflow rule of R64: after RESET, bytes that hold no marker pair are noise: they emit nothing, count nothing, and
BUF keeps the last BUF_CAP of them. -/
def Obligations.BytesAfterResetAreNoise : Prop :=
  ∀ (cfg : Params) (s : State) (bs : List Byte), headerScan bs 0 = none →
    pushAll cfg bs (softReset s) = { softReset s with buf := bs.drop (bs.length - cfg.bufCap) }

/-! ## The dispatcher (43_dispatcher.md) and the order of events (60_exceptions.md) -/

/-- R183: dispatching neither reads nor writes BUF, ERRCNT or CKSUM_MODE. -/
def Obligations.DispatchIgnoresBufferAndCounter : Prop :=
  ∀ (cfg : Params) (p : List Byte) (s : State) (m : Memory) (e : BitVec 32) (k : CksumMode),
    dispatch cfg p { s with buf := m, errcnt := e, cksumMode := k } =
      { dispatch cfg p s with buf := m, errcnt := e, cksumMode := k } ∧
    (dispatch cfg p s).buf = s.buf ∧ (dispatch cfg p s).errcnt = s.errcnt ∧
    (dispatch cfg p s).cksumMode = s.cksumMode ∧ (dispatch cfg p s).cmds = s.cmds

/-- R264, R265: the events one packet gives, in order: CKSUM_ERR alone when it is invalid; else PKT, then UNKNOWN_MSG for an unknown
kind, or for an EVENT the MEAS events and at most one UNKNOWN_EVENT or TRUNC_EVENT, which is last. It ranges over every list p; no
step hands over a list of fewer than 3 bytes, and the message type 0 such a list has here is the model's reading (log entry 8). -/
def Obligations.PacketEventOrder : Prop :=
  ∀ (cfg : Params) (p : List Byte) (s : State),
    let T := p.getD 2 0
    ∃ es, (handlePacket cfg p s).out = s.out ++ es ∧
      (validate p s.cksumMode = false → es = [.log .cksumErr (T.setWidth 16)]) ∧
      (validate p s.cksumMode = true →
        (cfg.msgKind T = .unknown →
          es = [.pkt .unknown p, .log .unknownMsg (T.setWidth 16)]) ∧
        (cfg.msgKind T ≠ .unknown → cfg.msgKind T ≠ .event → es = [.pkt (cfg.msgKind T) p]) ∧
        (cfg.msgKind T = .event → ∃ (ms : List Meas) (last : List OutEvent),
          es = .pkt .event p :: ms.map OutEvent.meas ++ last ∧
          (last = [] ∨ ∃ t : Byte, last = [.log .unknownEvent (t.setWidth 16)] ∨
            last = [.log .truncEvent (t.setWidth 16)])))

/-! ## The event decoder (44_event_decoder.md) -/

/-- R91, R196: the body length of each event type; every other type byte is unknown. -/
def Obligations.EventLengths : Prop :=
  ∀ cfg : Params,
    evlen cfg cfg.evtWeight = some 6 ∧ evlen cfg cfg.evtBattery = some 1 ∧ evlen cfg cfg.evtTimer = some 3 ∧
    evlen cfg cfg.evtKey = some 1 ∧ evlen cfg cfg.evtAck = some 2 ∧
    ∀ t, evlen cfg t = none ↔
      t ≠ cfg.evtWeight ∧ t ≠ cfg.evtBattery ∧ t ≠ cfg.evtTimer ∧ t ≠ cfg.evtKey ∧ t ≠ cfg.evtAck

/-- R195, R205, R206: the decoding loop, record by record and with no bound on its passes: an unknown type or a short body is
logged and stops it, and a whole record is applied before the rest is decoded. -/
def Obligations.DecodeEventsRecordByRecord : Prop :=
  ∀ (cfg : Params) (s : State),
    decodeEvents cfg [] s = s ∧
    ∀ (t : Byte) (rest : List Byte),
      decodeEvents cfg (t :: rest) s = match evKind cfg t with
        | none => { s with out := s.out ++ [.log .unknownEvent (t.setWidth 16)] }
        | some k =>
          if rest.length < bodyLength k then { s with out := s.out ++ [.log .truncEvent (t.setWidth 16)] }
          else decodeEvents cfg (rest.drop (bodyLength k)) (applyEvent cfg k (rest.take (bodyLength k)) s)

/-- R204: the whole records at the front of a region are applied in order, and keep their effect whatever follows them. -/
def Obligations.LeadingRecordsAreApplied : Prop :=
  ∀ (cfg : Params) (rs : List Record) (rest : List Byte) (s : State), RecordsOK cfg rs →
    decodeEvents cfg (recordBytes rs ++ rest) s = decodeEvents cfg rest (applyRecords cfg rs s)

/-- R62, R93, R199: a weight record writes the five weight fields and reports them, and changes nothing else. -/
def Obligations.WeightRecordDecodes : Prop :=
  ∀ (cfg : Params) (s : State) (b0 b1 b2 b3 b4 b5 : Byte),
    let body := [b0, b1, b2, b3, b4, b5]
    let mag := BitVec.ofNat 24 (b0.toNat + 256 * b1.toNat + 65536 * b2.toNat)
    let div := body.getD cfg.wdivOff 0
    let flags := (body.getD cfg.wflgOff 0).toNat
    let neg := decide (flags / 2 % 2 = 1)
    let stable := decide (flags % 2 = 0)
    let unit : WUnit := if div.toNat = 2 then .grams else if div.toNat = 4 then .ounces else .noUnit
    decodeEvents cfg (cfg.evtWeight :: body) s = { s with
      scale := { s.scale with wMag := mag, wDiv := div, wNeg := neg, wStable := stable, wUnit := unit }
      out := s.out ++ [.meas (.weight mag div neg stable unit)] }

/-- R92: on this block the divisor is body byte 3 and the flags are body byte 4. That the spec's default offsets are this block's is
the model's reading (log entry 6). -/
def Obligations.WeightOffsetsOfThisBlock : Prop :=
  ∀ (s : State) (b0 b1 b2 b3 b4 b5 : Byte),
    (decodeEvents Config.params [Config.params.evtWeight, b0, b1, b2, b3, b4, b5] s).scale.wDiv = b3 ∧
    (decodeEvents Config.params [Config.params.evtWeight, b0, b1, b2, b3, b4, b5] s).scale.wNeg = b4.getLsbD 1 ∧
    (decodeEvents Config.params [Config.params.evtWeight, b0, b1, b2, b3, b4, b5] s).scale.wStable = !b4.getLsbD 0

/-- R200, R201, R202, R203: the battery, timer, key and ack records: the fields each writes, the event it reports, and that nothing
else changes. -/
def Obligations.OtherRecordsDecode : Prop :=
  ∀ (cfg : Params) (s : State) (a b c : Byte),
    decodeEvents cfg [cfg.evtBattery, a] s =
      { s with scale := { s.scale with battery := a }, out := s.out ++ [.meas (.battery a)] } ∧
    decodeEvents cfg [cfg.evtTimer, a, b, c] s =
      { s with scale := { s.scale with tmrMin := a, tmrSec := b, tmrMs := c }, out := s.out ++ [.meas (.timer a b c)] } ∧
    decodeEvents cfg [cfg.evtKey, a] s = { s with out := s.out ++ [.meas (.key a)] } ∧
    decodeEvents cfg [cfg.evtAck, a, b] s = { s with out := s.out ++ [.meas (.ack a b)] }

/-- R207: a battery record and then a key record give exactly their two measurements, in order. -/
def Obligations.BatteryThenKeyRecords : Prop :=
  ∀ (cfg : Params) (s : State) (b k : Byte),
    decodeEvents cfg [cfg.evtBattery, b, cfg.evtKey, k] s =
      { s with scale := { s.scale with battery := b }, out := s.out ++ [.meas (.battery b), .meas (.key k)] }

/-- R198: each record decoded takes at least two bytes, so a region of n bytes gives at most n / 2 measurements, whatever it holds;
and decoding changes only SCALE and OUT. -/
def Obligations.DecodingIsBoundedByRegion : Prop :=
  ∀ (cfg : Params) (E : List Byte) (s : State),
    (decodeEvents cfg E s).buf = s.buf ∧ (decodeEvents cfg E s).errcnt = s.errcnt ∧
    (decodeEvents cfg E s).cksumMode = s.cksumMode ∧ (decodeEvents cfg E s).cmds = s.cmds ∧
    ∃ (ms : List Meas) (last : List OutEvent),
      (decodeEvents cfg E s).out = s.out ++ ms.map OutEvent.meas ++ last ∧
      ms.length ≤ E.length / 2 ∧ last.length ≤ 1 ∧ ∀ e ∈ last, ∃ c a, e = .log c a
end

