-- ==== Sys2Proof/Laws/State.lean ====
section
/-! SUPPORT. One lemma per field per named update of the state, so that no later proof unfolds an update. -/

namespace Sys2Proof.Machine

@[simp] theorem emit_buf (e : OutEvent) (s : State) : (emit e s).buf = s.buf := rfl
@[simp] theorem emit_errcnt (e : OutEvent) (s : State) : (emit e s).errcnt = s.errcnt := rfl
@[simp] theorem emit_cksumMode (e : OutEvent) (s : State) : (emit e s).cksumMode = s.cksumMode := rfl
@[simp] theorem emit_scale (e : OutEvent) (s : State) : (emit e s).scale = s.scale := rfl
@[simp] theorem emit_out (e : OutEvent) (s : State) : (emit e s).out = s.out ++ [e] := rfl
@[simp] theorem emit_cmds (e : OutEvent) (s : State) : (emit e s).cmds = s.cmds := rfl

@[simp] theorem log_buf (c : LogCode) (a : Word16) (s : State) : (log c a s).buf = s.buf := rfl
@[simp] theorem log_errcnt (c : LogCode) (a : Word16) (s : State) : (log c a s).errcnt = s.errcnt := rfl
@[simp] theorem log_cksumMode (c : LogCode) (a : Word16) (s : State) : (log c a s).cksumMode = s.cksumMode := rfl
@[simp] theorem log_scale (c : LogCode) (a : Word16) (s : State) : (log c a s).scale = s.scale := rfl
@[simp] theorem log_out (c : LogCode) (a : Word16) (s : State) : (log c a s).out = s.out ++ [.log c a] := rfl
@[simp] theorem log_cmds (c : LogCode) (a : Word16) (s : State) : (log c a s).cmds = s.cmds := rfl

@[simp] theorem countError_buf (s : State) : (countError s).buf = s.buf := rfl
@[simp] theorem countError_errcnt (s : State) : (countError s).errcnt = satInc s.errcnt := rfl
@[simp] theorem countError_cksumMode (s : State) : (countError s).cksumMode = s.cksumMode := rfl
@[simp] theorem countError_scale (s : State) : (countError s).scale = s.scale := rfl
@[simp] theorem countError_out (s : State) : (countError s).out = s.out := rfl
@[simp] theorem countError_cmds (s : State) : (countError s).cmds = s.cmds := rfl

@[simp] theorem bufDropFront_buf (k : Nat) (s : State) : (bufDropFront k s).buf = s.buf.drop k := rfl
@[simp] theorem bufDropFront_errcnt (k : Nat) (s : State) : (bufDropFront k s).errcnt = s.errcnt := rfl
@[simp] theorem bufDropFront_cksumMode (k : Nat) (s : State) : (bufDropFront k s).cksumMode = s.cksumMode := rfl
@[simp] theorem bufDropFront_scale (k : Nat) (s : State) : (bufDropFront k s).scale = s.scale := rfl
@[simp] theorem bufDropFront_out (k : Nat) (s : State) : (bufDropFront k s).out = s.out := rfl
@[simp] theorem bufDropFront_cmds (k : Nat) (s : State) : (bufDropFront k s).cmds = s.cmds := rfl

@[simp] theorem issue_buf (ws : List Word16) (s : State) : (issue ws s).buf = s.buf := rfl
@[simp] theorem issue_errcnt (ws : List Word16) (s : State) : (issue ws s).errcnt = s.errcnt := rfl
@[simp] theorem issue_cksumMode (ws : List Word16) (s : State) : (issue ws s).cksumMode = s.cksumMode := rfl
@[simp] theorem issue_scale (ws : List Word16) (s : State) : (issue ws s).scale = s.scale := rfl
@[simp] theorem issue_out (ws : List Word16) (s : State) : (issue ws s).out = s.out := rfl
@[simp] theorem issue_cmds (ws : List Word16) (s : State) : (issue ws s).cmds = s.cmds ++ ws := rfl

@[simp] theorem softReset_buf (s : State) : (softReset s).buf = [] := rfl
@[simp] theorem softReset_errcnt (s : State) : (softReset s).errcnt = s.errcnt := rfl
@[simp] theorem softReset_cksumMode (s : State) : (softReset s).cksumMode = s.cksumMode := rfl
@[simp] theorem softReset_scale (s : State) : (softReset s).scale = Scale.zero := rfl
@[simp] theorem softReset_out (s : State) : (softReset s).out = s.out := rfl
@[simp] theorem softReset_cmds (s : State) : (softReset s).cmds = s.cmds := rfl

@[simp] theorem setMode_buf (k : CksumMode) (s : State) : (setMode k s).buf = s.buf := rfl
@[simp] theorem setMode_errcnt (k : CksumMode) (s : State) : (setMode k s).errcnt = s.errcnt := rfl
@[simp] theorem setMode_cksumMode (k : CksumMode) (s : State) : (setMode k s).cksumMode = k := rfl
@[simp] theorem setMode_scale (k : CksumMode) (s : State) : (setMode k s).scale = s.scale := rfl
@[simp] theorem setMode_out (k : CksumMode) (s : State) : (setMode k s).out = s.out := rfl
@[simp] theorem setMode_cmds (k : CksumMode) (s : State) : (setMode k s).cmds = s.cmds := rfl

end Sys2Proof.Machine
end

