-- ==== Sys2Proof/Laws/Events.lean ====
section
/-! SUPPORT. The event decoder and the dispatcher write SCALE and OUT and nothing else. -/

namespace Sys2Proof.Machine

/-- Two states that differ in SCALE and OUT at most. -/
def SameButScaleOut (s t : State) : Prop :=
  t.buf = s.buf ∧ t.errcnt = s.errcnt ∧ t.cksumMode = s.cksumMode ∧ t.cmds = s.cmds

theorem SameButScaleOut.refl (s : State) : SameButScaleOut s s := ⟨rfl, rfl, rfl, rfl⟩

theorem SameButScaleOut.trans {s t u : State} (h : SameButScaleOut s t) (k : SameButScaleOut t u) :
    SameButScaleOut s u :=
  ⟨k.1.trans h.1, k.2.1.trans h.2.1, k.2.2.1.trans h.2.2.1, k.2.2.2.trans h.2.2.2⟩

/-- One record: SCALE's fields of its kind, and one MEAS event. -/
theorem applyEvent_frame (cfg : Params) (k : EvKind) (body : List Byte) (s : State) :
    SameButScaleOut s (applyEvent cfg k body s) ∧ ∃ m, (applyEvent cfg k body s).out = s.out ++ [.meas m] := by
  cases k <;> exact ⟨⟨rfl, rfl, rfl, rfl⟩, _, rfl⟩

theorem decodeLoop_frame (cfg : Params) (E : List Byte) (fuel c : Nat) (s : State) :
    SameButScaleOut s (decodeLoop cfg E fuel c s) := by
  induction fuel generalizing c s with
  | zero => exact .refl s
  | succ fuel ih =>
    unfold decodeLoop
    split
    · dsimp only
      split
      · exact ⟨rfl, rfl, rfl, rfl⟩
      · split
        · exact ⟨rfl, rfl, rfl, rfl⟩
        · exact (applyEvent_frame ..).1.trans (ih ..)
    · exact .refl s

theorem decodeEvents_frame (cfg : Params) (E : List Byte) (s : State) :
    SameButScaleOut s (decodeEvents cfg E s) := decodeLoop_frame ..

theorem dispatch_frame (cfg : Params) (p : List Byte) (s : State) : SameButScaleOut s (dispatch cfg p s) := by
  unfold dispatch
  dsimp only
  split
  · exact decodeEvents_frame ..
  · exact ⟨rfl, rfl, rfl, rfl⟩
  all_goals exact .refl s

end Sys2Proof.Machine
end

