-- ==== Sys2Proof/Laws/Ops.lean ====
section
/-! SUPPORT. What each shared operation can do, said once: the buffer operations and that they keep the buffer's form, the
saturating count, the command port, and the cases of a step. -/

namespace Sys2Proof.Machine

/-- Appending a byte touches BUF alone; at capacity the oldest byte goes first. -/
theorem bufAppend_eq (cfg : Params) (b : Byte) (s : State) :
    bufAppend cfg b s = { s with buf := (if s.buf.length = cfg.bufCap then s.buf.drop 1 else s.buf) ++ [b] } := by
  unfold bufAppend
  split <;> simp_all [bufDropFront]

theorem Memory.wf_iff (cfg : Params) (m : Memory) : Memory.wf cfg m = true ↔ m.length ≤ cfg.bufCap := by
  simp [Memory.wf]

theorem bufAppend_wf (cfg : Params) (b : Byte) (s : State) (h : Memory.wf cfg s.buf = true) :
    Memory.wf cfg (bufAppend cfg b s).buf = true := by
  rw [Memory.wf_iff] at *
  have := cfg.bufCap_min
  rw [bufAppend_eq]
  dsimp only
  split <;> simp <;> omega

theorem bufDropFront_wf (cfg : Params) (k : Nat) (s : State) (h : Memory.wf cfg s.buf = true) :
    Memory.wf cfg (bufDropFront k s).buf = true := by
  rw [Memory.wf_iff] at *
  simp only [bufDropFront_buf, List.length_drop]
  omega

theorem softReset_wf (cfg : Params) (s : State) : Memory.wf cfg (softReset s).buf = true := by
  simp [Memory.wf]

theorem reset_wf (cfg : Params) : Memory.wf cfg State.reset.buf = true := by
  simp [Memory.wf, State.reset]

theorem memRead_append_left (m : Memory) (b : Byte) (i : Nat) (h : i < m.length) :
    memRead (m ++ [b]) i = memRead m i := by
  simp [memRead, List.getElem?_append_left h]

theorem memRead_append_right (m : Memory) (b : Byte) : memRead (m ++ [b]) m.length = some b := by
  simp [memRead]

/-- A saturating count goes up by exactly one below its greatest value, and stays there. -/
theorem satInc_toNat {w : Nat} (v : BitVec w) : (satInc v).toNat = min (2 ^ w - 1) (v.toNat + 1) := by
  have h1 := v.isLt
  unfold satInc
  split
  · rw [BitVec.toNat_add_of_lt]
    · rcases w with _ | w
      · simp_all
      · simp
        omega
    · rcases w with _ | w
      · simp_all
      · have : (1 : BitVec (w + 1)).toNat = 1 := by simp
        omega
  · omega

/-- The command port gives its oldest word and keeps the others in order. -/
theorem fetch_eq_some {s s' : State} {w : Word16} :
    fetch s = some (w, s') ↔ ∃ rest, s.cmds = w :: rest ∧ s' = { s with cmds := rest } := by
  unfold fetch
  split <;> simp_all [eq_comm]

theorem fetch_eq_none {s : State} : fetch s = none ↔ s.cmds = [] := by
  unfold fetch
  split <;> simp_all

/-- What a step can do: nothing, with an empty port; perform the decoded instruction; or log an illegal word. -/
theorem step_cases {s t : State} (h : step s = .next t) :
    (s.cmds = [] ∧ t = s) ∨
    (∃ w rest i, s.cmds = w :: rest ∧ decode w = .legal i ∧ exec i { s with cmds := rest } = .next t) ∨
    (∃ w rest why, s.cmds = w :: rest ∧ decode w = .illegal why ∧ t = illegalCommand w { s with cmds := rest }) := by
  unfold step at h
  split at h
  · rename_i hf
    rw [fetch_eq_none] at hf
    simp only [execIdle, idle, Host.Outcome.next.injEq] at h
    exact .inl ⟨hf, h.symm⟩
  · rename_i w s' hf
    obtain ⟨rest, hc, rfl⟩ := fetch_eq_some.mp hf
    split at h
    · rename_i i hd
      exact .inr (.inl ⟨w, rest, i, hc, hd, h⟩)
    · rename_i why hd
      simp only [execIllegal, Host.Outcome.next.injEq] at h
      exact .inr (.inr ⟨w, rest, why, hc, hd, h.symm⟩)

/-- What an instruction can do: each meaning is one state function, and none stops. -/
theorem exec_cases (i : Instr) (s : State) :
    exec i s = .next (match i with
      | .push b => push Config.params b s
      | .reset => softReset s
      | .setmode m => match modeOfByte m with
        | some k => setMode k s
        | none => illegalCommand (encode (.setmode m)) s
      | .rdreg r => match regOfByte r with
        | some x => readReg x s
        | none => illegalCommand (encode (.rdreg r)) s) := by
  cases i with
  | push b => rfl
  | reset => rfl
  | setmode m => simp only [exec, execSetmode]; split <;> simp_all
  | rdreg r => simp only [exec, execRdreg]; split <;> simp_all

end Sys2Proof.Machine
end

