-- ==== Sys2Proof/Laws/Assembler.lean ====
section
/-! SUPPORT. The frame assembler: what `frameStep` can answer, and what handling a packet and framing leave alone. -/

namespace Sys2Proof.Machine

/-- What an extraction says of the buffer. -/
theorem frameStep_extract {m : Memory} {h : Nat} {p : List Byte} (e : frameStep m = .extract h p) :
    headerScan m 0 = some h ∧ ∃ n, memRead m (h + 3) = some n ∧ h + (n.toNat + 5) ≤ m.length ∧
      p = slice h (h + (n.toNat + 5)) m := by
  unfold frameStep at e
  split at e
  · cases e
  · rename_i h' hs
    split at e
    · cases e
    · rename_i n hn
      dsimp only at e
      split at e
      · cases e
      · injection e with e1 e2
        subst e1
        exact ⟨hs, n, hn, by omega, e2.symm⟩

/-- Handling a packet: BUF, the mode and the port stay. -/
theorem handlePacket_frame (cfg : Params) (p : List Byte) (s : State) :
    (handlePacket cfg p s).buf = s.buf ∧ (handlePacket cfg p s).cksumMode = s.cksumMode ∧
      (handlePacket cfg p s).cmds = s.cmds := by
  unfold handlePacket
  split
  · obtain ⟨h1, -, h3, h4⟩ := dispatch_frame cfg p (emit (.pkt (cfg.msgKind (packetType p)) p) s)
    exact ⟨h1, h3, h4⟩
  · exact ⟨rfl, rfl, rfl⟩

/-- The two results of one packet. -/
theorem handlePacket_cases (cfg : Params) (p : List Byte) (s : State) :
    (validate p s.cksumMode = true ∧
      handlePacket cfg p s = dispatch cfg p (emit (.pkt (cfg.msgKind (packetType p)) p) s)) ∨
    (validate p s.cksumMode = false ∧
      handlePacket cfg p s = log .cksumErr ((packetType p).setWidth 16) (countError s)) := by
  unfold handlePacket
  split <;> simp_all

/-- One pass of the framing loop. -/
theorem framingLoop_succ (cfg : Params) (fuel : Nat) (s : State) :
    framingLoop cfg (fuel + 1) s = match frameStep s.buf with
      | .idle => s
      | .wait => s
      | .extract h p => framingLoop cfg fuel (handlePacket cfg p (bufDropFront (h + p.length) s)) := rfl

end Sys2Proof.Machine
end

