-- ==== Sys2Proof/Laws/Assembly.lean ====
section
/-! SUPPORT. What each operand form of the assembler syntax accepts, and what makes a line of exactly one operand. -/

namespace Sys2Proof.Machine

theorem asmByte_eq_some {x : AsmOperand} {b : Byte} : asmByte x = some b ↔ x = .num b.toNat := by
  cases x with
  | name s => simp [asmByte]
  | num n =>
    simp only [asmByte, AsmOperand.num.injEq]
    split
    · exact ⟨fun e => (by cases e; simp at *; omega), fun e => by subst e; simp⟩
    · rename_i h
      exact ⟨fun e => (by cases e), fun e => absurd (lt_of_eq_of_lt e b.isLt) h⟩

theorem asmWord_eq_some {x : AsmOperand} {w : Word16} : asmWord x = some w ↔ x = .num w.toNat := by
  cases x with
  | name s => simp [asmWord]
  | num n =>
    simp only [asmWord, AsmOperand.num.injEq]
    split
    · exact ⟨fun e => (by cases e; simp at *; omega), fun e => by subst e; simp⟩
    · rename_i h
      exact ⟨fun e => (by cases e), fun e => absurd (lt_of_eq_of_lt e w.isLt) h⟩

/-- The mode a SETMODE data byte names is the one whose number it is. -/
theorem modeOfByte_eq_some (m : Byte) (k : CksumMode) : modeOfByte m = some k ↔ m = (modeBits k).setWidth 8 := by
  unfold modeOfByte
  cases k <;> split_ifs <;> simp_all [modeBits]

/-- The register a RDREG data byte names is the one whose number it is. -/
theorem regOfByte_eq_some (r : Byte) (x : Reg) : regOfByte r = some x ↔ r = regNumber x := by
  unfold regOfByte
  constructor
  · intro e
    exact (beq_iff_eq.mp (List.find?_some (p := fun x => regNumber x == r) e)).symm
  · rintro rfl
    cases x <;> decide

theorem asmMode_eq_some {x : AsmOperand} {k : CksumMode} :
    asmMode x = some k ↔ x = .name (modeName k) ∨ x = .num (modeBits k).toNat := by
  cases x with
  | name s =>
    simp only [asmMode, AsmOperand.name.injEq, reduceCtorEq, or_false]
    constructor
    · intro e
      exact (beq_iff_eq.mp (List.find?_some (p := fun k => modeName k == s) e)).symm
    · rintro rfl
      cases k <;> decide
  | num n =>
    simp only [asmMode, AsmOperand.num.injEq, reduceCtorEq, false_or]
    have hk : (modeBits k).toNat < 4 := (modeBits k).isLt
    split
    · rename_i h
      rw [modeOfByte_eq_some, ← BitVec.toNat_inj]
      simp only [BitVec.toNat_ofNat, BitVec.toNat_setWidth]
      omega
    · exact ⟨fun e => (by cases e), fun e => by omega⟩

theorem asmReg_eq_some {x : AsmOperand} {r : Reg} :
    asmReg x = some r ↔ x = .name (regName r) ∨ x = .num (regNumber r).toNat := by
  cases x with
  | name s =>
    simp only [asmReg, AsmOperand.name.injEq, reduceCtorEq, or_false]
    constructor
    · intro e
      exact (beq_iff_eq.mp (List.find?_some (p := fun x => regName x == s) e)).symm
    · rintro rfl
      cases r <;> decide
  | num n =>
    simp only [asmReg, AsmOperand.num.injEq, reduceCtorEq, false_or]
    have hk : (regNumber r).toNat < 256 := (regNumber r).isLt
    split
    · rename_i h
      rw [regOfByte_eq_some, ← BitVec.toNat_inj]
      simp only [BitVec.toNat_ofNat]
      omega
    · exact ⟨fun e => (by cases e), fun e => by omega⟩

/-- A line of one operand takes it, and nothing else, from the operand list. -/
theorem asmOne_eq_some {α : Type} {f : AsmOperand → Option α} {ops : List AsmOperand} {a : α} :
    asmOne f ops = some a ↔ ∃ x, ops = [x] ∧ f x = some a := by
  unfold asmOne
  split
  · simp
  · rename_i h
    exact ⟨fun e => (by cases e), fun ⟨x, e, _⟩ => absurd e (h x)⟩

end Sys2Proof.Machine
end

