-- ==== Sys2Proof/Laws/Operands.lean ====
section
/-! SUPPORT. The packet's fields with the header and tail sizes written out, their lengths, and what `validate` computes. -/

namespace Sys2Proof.Machine

theorem slice_length (a b : Nat) (s : List Byte) : (slice a b s).length = min b s.length - a := by
  simp [slice]

theorem slice_add (a n : Nat) (s : List Byte) : slice a (a + n) s = (s.drop a).take n := by
  simp [slice, List.drop_take]

theorem checksumRegion_eq (p : List Byte) : checksumRegion p = slice 3 (p.length - 2) p := rfl

theorem eventRegion_eq (p : List Byte) : eventRegion p = slice 4 (p.length - 2) p := rfl

theorem checksumRegion_length (p : List Byte) : (checksumRegion p).length = p.length - 5 := by
  rw [checksumRegion_eq, slice_length]
  omega

theorem eventRegion_length (p : List Byte) : (eventRegion p).length = p.length - 6 := by
  rw [eventRegion_eq, slice_length]
  omega

/-- A byte index below the length reads the byte there: the default of `byteAt` is never used. -/
theorem byteAt_eq_getElem (s : List Byte) (i : Nat) (h : i < s.length) : byteAt s i = s[i] := by
  simp [byteAt, List.getElem?_eq_getElem h]

/-- `validate` on a packet that is long enough is its variant's check. -/
theorem validate_eq (p : List Byte) (h : 5 ≤ p.length) (mode : CksumMode) :
    validate p mode = match mode with
      | .split => splitOK (checksumRegion p) (checksumByte0 p) (checksumByte1 p)
      | .sumTails => sumTailsOK (checksumRegion p) (checksumByte0 p) (checksumByte1 p)
      | .sumLast => sumLastOK (checksumRegion p) (checksumByte1 p) := by
  have h' : ¬ p.length < 5 := by omega
  cases mode <;> exact if_neg h'

end Sys2Proof.Machine
end

