-- ==== Sys2Proof/Laws/PerInstr.lean ====
section
/-! SUPPORT. One statement about every instruction as syntax, one lemma a constructor: the encoding of the instruction has the bits
that its row of spec/opcode_table.json fixes (30_encoding.md R82). -/

namespace Sys2Proof.Laws.FixedBits

/-- The mask and match words of the instruction's table row. -/
def tableRow : Instr → Word16 × Word16
  | .push _ => (0xFF00, 0x0100)
  | .reset => (0xFFFF, 0x0200)
  | .setmode _ => (0xFF00, 0x0300)
  | .rdreg _ => (0xFF00, 0x0400)

/-- The encoding agrees with the row's match word on the bits of its mask. -/
def Statement (i : Instr) : Prop := encode i &&& (tableRow i).1 = (tableRow i).2

theorem cmdWord_mask (op d : Byte) : cmdWord op d &&& 0xFF00 = cmdWord op 0 := by
  calc cmdWord op d &&& 0xFF00 = (op ++ d) &&& (BitVec.allOnes 8 ++ 0#8) := rfl
    _ = (op &&& BitVec.allOnes 8) ++ (d &&& 0#8) := BitVec.and_append
    _ = op ++ 0#8 := by rw [BitVec.and_allOnes, BitVec.and_zero]
    _ = cmdWord op 0 := rfl

theorem push (b : Byte) : Statement (.push b) := by
  simp only [Statement, encode, tableRow, cmdWord_mask]
  decide

theorem reset : Statement .reset := by
  unfold Statement
  decide

theorem setmode (m : Byte) : Statement (.setmode m) := by
  simp only [Statement, encode, tableRow, cmdWord_mask]
  decide

theorem rdreg (r : Byte) : Statement (.rdreg r) := by
  simp only [Statement, encode, tableRow, cmdWord_mask]
  decide

end Sys2Proof.Laws.FixedBits
end

