-- ==== Sys2Proof/Laws/Run.lean ====
section
/-! SUPPORT. Runs of several steps: their unfolding, and that they are the host's runs of the machine. -/

namespace Sys2Proof.Safety

open Sys2Proof.Machine

@[simp] theorem run_zero (s : State) : run 0 s = .next s := rfl

theorem run_succ_of_next {s t : State} (k : Nat) (h : step s = .next t) : run (k + 1) s = run k t := by
  simp [run, h]

/-- The host's run goes on from a next state. -/
theorem coreRun_next (M : Host.Core) (k : Nat) {s t : M.State} (h : M.step s = .next t) :
    M.run (k + 1) s = M.run k t := by simp [Host.Core.run, h]

theorem run_eq_core_run (k : Nat) (s : State) : run k s = Host.Core.run Sys2Proof.core k s := by
  induction k generalizing s with
  | zero => rfl
  | succ k ih =>
    cases h : step s with
    | next t => exact (run_succ_of_next k h).trans ((ih t).trans (coreRun_next Sys2Proof.core k h).symm)
    | fault r => cases r
    | refused r =>
      have hc : ∀ (M : Host.Core) (s : M.State) (r : M.Refusal), M.step s = .refused r →
          M.run (k + 1) s = .refused r := fun M s r h => by simp [Host.Core.run, h]
      exact (show run (k + 1) s = .refused r by simp [run, h]).trans (hc Sys2Proof.core s r h).symm

end Sys2Proof.Safety
end

