-- ==== Sys2Proof/Laws/Scanner.lean ====
section
/-! SUPPORT. The header scanner: its unfolding one byte at a time, and how it moves with its start index. -/

namespace Sys2Proof.Machine

@[simp] theorem scanFrom_nil (i : Nat) : scanFrom [] i = none := rfl

@[simp] theorem scanFrom_singleton (x : Byte) (i : Nat) : scanFrom [x] i = none := rfl

theorem scanFrom_cons_cons (x y : Byte) (rest : List Byte) (i : Nat) :
    scanFrom (x :: y :: rest) i =
      if x = Config.m1 ∧ y = Config.m2 then some i else scanFrom (y :: rest) (i + 1) := rfl

/-- Where the scan starts counting only shifts the answer. -/
theorem scanFrom_shift (s : List Byte) (i k : Nat) : scanFrom s (i + k) = (scanFrom s i).map (· + k) := by
  induction s generalizing i with
  | nil => rfl
  | cons x t ih =>
    cases t with
    | nil => rfl
    | cons y rest =>
      simp only [scanFrom_cons_cons]
      split
      · rfl
      · rw [show i + k + 1 = (i + 1) + k by omega]
        exact ih (i + 1)

theorem scanFrom_eq_map (s : List Byte) (i : Nat) : scanFrom s i = (scanFrom s 0).map (· + i) := by
  simpa using scanFrom_shift s 0 i

theorem headerScan_zero (s : List Byte) : headerScan s 0 = scanFrom s 0 := by simp [headerScan]

end Sys2Proof.Machine
end

