-- ==== Sys2Proof/Tests/Slice0.lean ====
section
/-! SUPPORT. The model's own tests and, for every statement with hypotheses, a state and operands that meet them. Expected values
come from spec/95_test_vectors.md (the vector is named at each test) or from the rule named there. -/

namespace Sys2Proof.Tests

open Sys2Proof.Machine Sys2Proof.Safety

/-- The test parameter set TP (95_test_vectors.md section 2). -/
def tp : Params where
  bufCap := 260
  bufCap_min := by decide
  bufCap_max := by decide
  msgKind := fun t => if t = 0x0C then .event else if t = 0x08 then .status else .unknown
  msgKind_event_unique := by
    intro a b
    split_ifs <;> simp_all
  evtWeight := 0x05
  evtBattery := 0x06
  evtTimer := 0x07
  evtKey := 0x08
  evtAck := 0x0B
  evt_distinct := by decide
  wdivOff := 3
  wflgOff := 4

/-- TP with another kind for the type byte 0x08, so that every terminal kind can be shown. -/
def tpKind (k : MsgKind) (h : k ≠ .event) : Params where
  __ := tp
  msgKind := fun t => if t = 0x0C then .event else if t = 0x08 then k else .unknown
  msgKind_event_unique := by
    intro a b
    split_ifs <;> simp_all

/-- A state whose buffer holds m and which is otherwise as after reset. -/
def withBuf (m : List Byte) : State := { State.reset with buf := m }

def nextOf : Host.Outcome State Fault Refusal → Option State
  | .next s => some s
  | .fault _ => none
  | .refused _ => none

/-- The packets of 95_test_vectors.md section 2. -/
def lit : List Byte := [0xEF, 0xDD, 0x0C, 0x08, 0x05, 0x04, 0x00, 0x00, 0x00, 0x02, 0x02, 0x0E, 0x07]
def z0 : List Byte := [0xEF, 0xDD, 0x0C, 0x00, 0x00]

/-! ## Well-formedness: one ill-formed term for each check -/

theorem test_setmode_ill_formed : (Instr.setmode 0x03).wellFormed = false := by decide
theorem test_setmode_well_formed : (Instr.setmode 0x02).wellFormed = true := by decide
theorem test_rdreg_ill_formed : (Instr.rdreg 0x0B).wellFormed = false := by decide
theorem test_rdreg_well_formed : (Instr.rdreg 0x0A).wellFormed = true := by decide

/-! ## Decoding: words written out bit by bit from 30_encoding.md R82 -/

theorem test_decode_push : decode 0b0000000111101111 = .legal (.push 0xEF) := by decide
theorem test_decode_reset : decode 0b0000001000000000 = .legal .reset := by decide
theorem test_decode_setmode : decode 0b0000001100000010 = .legal (.setmode 0x02) := by decide
theorem test_decode_rdreg : decode 0b0000010000001010 = .legal (.rdreg 0x0A) := by decide

/-- CMD-6, CMD-7, CMD-8, CMD-9, CMD-10. -/
theorem test_decode_illegal :
    [0x0303, 0x0000, 0x0201, 0x040B, 0x0500].map decode =
      [.illegal .modeReserved, .illegal .opcodeZero, .illegal .resetOperand, .illegal .registerUnassigned,
        .illegal .opcodeUnassigned] := by decide

theorem test_decodeTableWord :
    [(16, 0x0142), (16, 0x0200), (16, 0x0301), (16, 0x0402), (16, 0x0403 + 0x10000), (32, 0x10142)].map
      (fun x => decodeTableWord x.1 x.2) =
      [some (.push 0x42), some .reset, some (.setmode 1), some (.rdreg 2), some (.rdreg 3), none] := by decide

/-! ## Internal functions -/

/-- HS-1 to HS-10. -/
theorem test_headerScan :
    [[], [0xEF], [0x11, 0xEF], [0x11, 0xEF, 0xDD], [0xEF, 0xEF, 0xDD], [0xEF, 0x00, 0xEF, 0xDD], [0xDD, 0xEF],
      [0xEF, 0xDD, 0xEF, 0xDD], [0x00, 0xEF, 0xDD, 0x0C], [0xDD, 0xDD, 0xEF, 0xEF, 0xEF, 0xDD]].map (headerScan · 0) =
      [none, none, none, some 1, some 1, some 2, none, some 0, some 1, some 4] := by decide

/-- CK-1 to CK-3 and CK-5. -/
theorem test_validate_lit :
    [validate lit .split, validate lit .sumTails, validate lit .sumLast, validate (lit.take 12) .split] =
      [true, true, false, false] := by decide

/-- CK-6, CK-7, CK-8, CK-10 to CK-12. -/
theorem test_validate_corners :
    [validate z0 .split, validate [0xEF, 0xDD, 0x0C, 0x00, 0x01] .split, validate (z0.take 4) .sumLast,
      validate ([0, 0, 0] ++ lit.drop 3) .split, validate ((lit.set 4 4).set 5 5) .split,
      validate ((lit.set 3 4).set 5 8) .split] = [true, false, false, true, false, true] := by decide

/-- EV-4: weight 12345, divisor 4, negative, unstable, ounces. -/
theorem test_weight_record :
    (decodeEvents tp [0x05, 0x39, 0x30, 0x00, 0x04, 0x03, 0x00] State.reset).out =
      [.meas (.weight 12345 4 true false .ounces)] := by decide

/-- EV-6: an unknown type stops the region. -/
theorem test_unknown_record :
    (decodeEvents tp [0x06, 0x40, 0x09, 0x06, 0x41] State.reset).out =
      [.meas (.battery 0x40), .log .unknownEvent 0x0009] := by decide

/-- EV-7: a short record is not applied. -/
theorem test_short_record :
    decodeEvents tp [0x07, 0x01, 0x02] State.reset = { State.reset with out := [.log .truncEvent 0x0007] } := by decide

/-- The code column of 60_exceptions.md R261. -/
theorem test_log_numbers :
    [LogCode.cksumErr, .unknownMsg, .unknownEvent, .truncEvent, .illegalCmd].map LogCode.number = [1, 2, 3, 4, 5] := by decide

/-- The assembler's words of 95_test_vectors.md P1 and P3. -/
theorem test_assemble :
    assemble [.pushn [0x00, 0xEF], .rdreg .status, .setmode .sumTails, .reset, .word 0x0303] =
      [0x0100, 0x01EF, 0x0400, 0x0301, 0x0200, 0x0303] := by decide

/-- Lines of P1 and P3, and a mnemonic in lower case. -/
theorem test_readLine :
    readLine "rdreg".toList [.name "STATUS".toList] = some (.rdreg .status) ∧
    readLine "SETMODE".toList [.name "SUM_TAILS".toList] = some (.setmode .sumTails) ∧
    readLine ".word".toList [.num 0x0303] = some (.word 0x0303) ∧
    readLine "PUSHN".toList [.num 0x00, .num 0xEF] = some (.pushn [0x00, 0xEF]) ∧
    readLine "PUSH".toList [.num 0x100] = none := by decide

/-- What is no line: another mnemonic, a spare operand, a number out of range (assumption log 10). -/
theorem test_readLine_none :
    [readLine "PULL".toList [.num 0], readLine "RESET".toList [.num 0], readLine "PUSH".toList [.num 0, .num 0],
      readLine "SETMODE".toList [.num 3], readLine "RDREG".toList [.num 0x0B], readLine ".word".toList [.num 0x10000],
      readLine "PUSHN".toList [.num 0, .num 0x100]] = List.replicate 7 none := by decide

/-! ## Commands -/

/-- FA-1: the last byte of LIT, events and buffer. -/
theorem test_push_packet :
    ((push tp 0x07 (withBuf (lit.take 12))).out, (push tp 0x07 (withBuf (lit.take 12))).buf) =
      ([.pkt .event lit, .meas (.weight 4 0 true true .noUnit)], []) := by decide

/-- CMD-11: an invalid packet (FA-11) at the greatest count. -/
theorem test_push_invalid_saturates :
    ((push tp 0x01 { withBuf [0xEF, 0xDD, 0x0C, 0x00] with errcnt := 0xFFFFFFFF }).errcnt,
      (push tp 0x01 { withBuf [0xEF, 0xDD, 0x0C, 0x00] with errcnt := 0xFFFFFFFF }).out) =
      (0xFFFFFFFF, [.log .cksumErr 0x000C]) := by decide

/-- CMD-2. -/
theorem test_reset :
    (nextOf (exec .reset { withBuf [0xEF, 0xDD, 0x0C, 0x05, 0x06] with
      errcnt := 1, scale := { Scale.zero with battery := 85 } })) = some { State.reset with errcnt := 1 } := by decide

/-- CMD-3. -/
theorem test_setmode :
    nextOf (exec (.setmode 0x01) State.reset) = some { State.reset with cksumMode := .sumTails } := by decide

/-- CMD-5. -/
theorem test_rdreg_wflags :
    (nextOf (exec (.rdreg 0x06) { State.reset with scale := { Scale.zero with wUnit := .grams, wStable := true } })).map
      (·.out) = some [.rsp 0x06 0x00000006] := by decide

/-- P4: STATUS and BUFLEVEL with an incomplete packet. -/
theorem test_rdreg_status :
    (regValue .status (withBuf [0xEF, 0xDD, 0x0C, 0x05, 0x06]), regValue .buflevel (withBuf [0xEF, 0xDD, 0x0C, 0x05, 0x06])) =
      (1, 5) := by decide

/-- CMD-6, through a step. -/
theorem test_step_illegal :
    nextOf (step { State.reset with cksumMode := .sumLast, cmds := [0x0303, 0x0200] }) =
      some { State.reset with cksumMode := .sumLast, out := [.log .illegalCmd 0x0303], cmds := [0x0200] } := by decide

/-- An issued SETMODE word is what the next step performs. -/
theorem test_withFetchWord :
    nextOf (step (State.reset.withFetchWord 16 0x0302)) = some { State.reset with cksumMode := .sumLast } := by decide

/-! ## The hypotheses of the statements can be met

One theorem for each statement that has hypotheses, and for each of its clauses where it has several. -/

theorem params_bufCap_ge : 260 ≤ Config.params.bufCap := Config.params.bufCap_min

theorem appended_below (m : List Byte) (b : Byte) (h : m.length < 260) :
    appended Config.params b m = m ++ [b] := by
  have := params_bufCap_ge
  unfold appended
  rw [if_neg (by omega)]

theorem inv_of_short (m : List Byte) (h : m.length < 260) (hq : quiescent m = true) : Inv Config.params (withBuf m) := by
  have := params_bufCap_ge
  exact ⟨(Memory.wf_iff _ _).mpr (by simp only [withBuf]; omega), hq⟩

theorem inv_of_short_tp (m : List Byte) (h : m.length ≤ 260) (hq : quiescent m = true) : Inv tp (withBuf m) :=
  ⟨(Memory.wf_iff _ _).mpr h, hq⟩

/-- DecodeFollowsProcedure and IllegalWordsAreLogged: a word for each clause, at its boundaries. -/
theorem witness_decode_clauses :
    [0x0100, 0x01FF, 0x0200, 0x0300, 0x0302, 0x0400, 0x040A].map (fun w : Nat => (w / 256, w % 256)) =
      [(1, 0), (1, 255), (2, 0), (3, 0), (3, 2), (4, 0), (4, 10)] ∧
    [0x00FF, 0x0201, 0x0303, 0x040B, 0x0500, 0xFFFF].map (fun w : Nat => (w / 256, w % 256)) =
      [(0, 255), (2, 1), (3, 3), (4, 11), (5, 0), (255, 255)] := by decide

theorem witness_illegal_word : ∃ why, decode 0xFFFF = .illegal why := ⟨.opcodeUnassigned, by decide⟩

theorem witness_IssuedTableWordRunsNext : (Instr.rdreg 0x0A).wellFormed = true := by decide

theorem witness_StepRunsDecodedInstruction :
    (({ State.reset with cmds := [0x0200] } : State).cmds = 0x0200 :: [] ∧ decode 0x0200 = .legal .reset) ∧
    (({ State.reset with cmds := [0x0303] } : State).cmds = 0x0303 :: [] ∧ decode 0x0303 = .illegal .modeReserved) := by
  decide

theorem witness_IdleStepKeepsState : State.reset.cmds = [] := rfl

theorem witness_SetmodeSelectsVariant :
    ((2 : Byte), CksumMode.sumLast) ∈ [((0 : Byte), CksumMode.split), (1, .sumTails), (2, .sumLast)] := by decide

theorem witness_IllegalOperandsAreLogged :
    3 ≤ (0x03 : Byte).toNat ∧ 3 ≤ (0xFF : Byte).toNat ∧ 11 ≤ (0x0B : Byte).toNat ∧ 11 ≤ (0xFF : Byte).toNat := by decide

theorem witness_RdregRepliesWithRegister : (withBuf (List.replicate Config.params.bufCap 0)).buf.length ≤ Config.params.bufCap := by
  simp [withBuf]

theorem witness_ReadsHaveNoSideEffect : (0x00 : Byte).toNat ≤ 10 ∧ (0x0A : Byte).toNat ≤ 10 := by decide

theorem witness_WeightValueIsScaledMagnitude :
    ({ Scale.zero with wNeg := true } : Scale).wMag = 0 ∧ ({ Scale.zero with wNeg := true } : Scale).wNeg = true := by decide

theorem witness_FramingStatusMeaning :
    quiescent (withBuf [0xEF, 0xDD, 0x0C]).buf = true ∧ frameStep (withBuf [0xEF, 0xDD, 0x0C]).buf = .wait ∧
    quiescent (withBuf [0x00, 0xEF]).buf = true ∧ frameStep (withBuf [0x00, 0xEF]).buf = .idle := by decide

/-- ErrcntCountsChecksumErrors, OutIsWrittenAndNeverRead, OnlySetmodeChangesVariant, StepKeepsInvariant: a step that gives a next
state and changes the variant, from a state that meets the invariant. -/
theorem witness_step_next :
    ∃ t, step { withBuf [0xEF, 0xDD] with cmds := [0x0301] } = .next t ∧ t.cksumMode ≠ .split := by
  refine ⟨setMode .sumTails (withBuf [0xEF, 0xDD]), rfl, by decide⟩

theorem witness_StepKeepsInvariant :
    Inv Config.params { withBuf [0xEF, 0xDD] with cmds := [0x0301] } ∧
    step { withBuf [0xEF, 0xDD] with cmds := [0x0301] } = .next (setMode .sumTails (withBuf [0xEF, 0xDD])) :=
  ⟨inv_of_short [0xEF, 0xDD] (by decide) (by decide), rfl⟩

/-- CommandFrames: each command gives a next state. -/
theorem witness_CommandFrames :
    exec (.push 0) State.reset = .next (push Config.params 0 State.reset) ∧
    exec .reset State.reset = .next (softReset State.reset) ∧
    ((0x02 : Byte).toNat ≤ 2 ∧ exec (.setmode 0x02) State.reset = .next (setMode .sumLast State.reset)) ∧
    exec (.rdreg 0x0A) State.reset = .next (readReg .tmrms State.reset) ∧
    exec (.rdreg 0x0B) State.reset = .next (illegalCommand 0x040B State.reset) :=
  ⟨rfl, rfl, ⟨by decide, rfl⟩, rfl, rfl⟩

theorem witness_TrailingMarkerIsNotHeader : headerScan [0x11] 0 = none := by decide

theorem witness_IsolatedMarkerIsSkipped :
    (([0xEF, 0x00] : List Byte)[0]? = some 0xEF ∧ ([0xEF, 0x00] : List Byte)[1]? ≠ some 0xDD) ∧
    (([0x11, 0xEF] : List Byte)[1]? = some 0xEF ∧ ([0x11, 0xEF] : List Byte)[2]? ≠ some 0xDD) := by decide

theorem witness_ValidateComputesChecksums : (z0.take 4).length < 5 ∧ 5 ≤ z0.length := by decide

/-- SingleByteChangeDetected: a change of the first and of the last byte of the checksum region, and of either tail byte. -/
theorem witness_SingleByteChangeDetected :
    5 ≤ lit.length ∧ validate lit .split = true ∧
    (3 ≤ 3 ∧ 3 < lit.length - 2 ∧ (0 : Byte) ≠ lit.getD 3 0) ∧ (3 ≤ 10 ∧ 10 < lit.length - 2 ∧ (0 : Byte) ≠ lit.getD 10 0) ∧
    (lit.length - 2 ≤ 11 ∧ 11 < lit.length ∧ (0 : Byte) ≠ lit.getD 11 0) ∧
    (lit.length - 2 ≤ 12 ∧ 12 < lit.length ∧ (0 : Byte) ≠ lit.getD 12 0) := by decide

theorem witness_UndetectedByteChanges :
    5 ≤ lit.length ∧ (0x0F : Byte) + 0x06 = lit.getD (lit.length - 2) 0 + lit.getD (lit.length - 1) 0 := by decide

theorem witness_UndetectedPermutations :
    ([0xEF, 0xDD, 0x0C] : List Byte).length = 3 ∧ ([1, 2, 3] : List Byte).Perm [2, 1, 3] ∧
    (0 < ([1, 2, 3] : List Byte).length ∧ 2 < ([1, 2, 3] : List Byte).length ∧ 0 % 2 = 2 % 2) := by decide

theorem witness_SplitRoundTrip :
    (([] : List Byte).length ≤ 255 ∧ (([] : List Byte) ≠ [] → (([] : List Byte).getD 0 0).toNat = 0)) ∧
    (([2, 9] : List Byte).length ≤ 255 ∧ (([2, 9] : List Byte) ≠ [] → (([2, 9] : List Byte).getD 0 0).toNat = 2)) := by decide

theorem witness_ExtractedPacketIsFramed : frameStep ([0x00] ++ z0 ++ [0x01]) = .extract 1 z0 := by decide

/-- PushWithoutPacketRetainsBytes: below capacity with an incomplete packet, and at capacity with noise. -/
theorem witness_push_quiescent :
    quiescent (appended Config.params 0x0C (withBuf [0xEF, 0xDD]).buf) = true := by
  show quiescent (appended Config.params 0x0C [0xEF, 0xDD]) = true
  rw [appended_below _ _ (by decide)]
  decide

theorem scanFrom_zeros (n i : Nat) : scanFrom (List.replicate n 0) i = none := by
  induction n generalizing i with
  | zero => rfl
  | succ n ih =>
    cases n with
    | zero => rfl
    | succ n =>
      have h : ¬ ((0 : Byte) = Config.m1 ∧ (0 : Byte) = Config.m2) := by decide
      show (if (0 : Byte) = Config.m1 ∧ (0 : Byte) = Config.m2 then some i else
        scanFrom (List.replicate (n + 1) 0) (i + 1)) = none
      rw [if_neg h]
      exact ih (i + 1)

theorem quiescent_zeros (n : Nat) : quiescent (List.replicate n 0) = true := by
  have h : headerScan (List.replicate n 0) 0 = none := scanFrom_zeros n 0
  unfold quiescent frameStep
  rw [h]

theorem witness_push_quiescent_full :
    (List.replicate Config.params.bufCap (0 : Byte)).length = Config.params.bufCap ∧
    quiescent (appended Config.params 0 (List.replicate Config.params.bufCap 0)) = true := by
  have hc := params_bufCap_ge
  refine ⟨by simp, ?_⟩
  have h : appended Config.params 0 (List.replicate Config.params.bufCap 0) = List.replicate Config.params.bufCap 0 := by
    unfold appended
    rw [if_pos List.length_replicate, List.drop_replicate, ← List.replicate_succ',
      show Config.params.bufCap - 1 + 1 = Config.params.bufCap by omega]
  rw [h]
  exact quiescent_zeros _

/-- PushCompletesOnePacket, PushReportsValidPacket on this block: the last byte of a valid packet. -/
theorem witness_PushCompletesOnePacket :
    Inv Config.params (withBuf (z0.take 4)) ∧
    frameStep (appended Config.params 0x00 (withBuf (z0.take 4)).buf) = .extract 0 z0 ∧
    validate z0 (withBuf (z0.take 4)).cksumMode = true := by
  refine ⟨inv_of_short _ (by decide) (by decide), ?_, by decide⟩
  show frameStep (appended Config.params 0x00 (z0.take 4)) = _
  rw [appended_below _ _ (by decide)]
  decide

/-- PushDropsInvalidPacket: FA-11. -/
theorem witness_PushDropsInvalidPacket :
    Inv Config.params (withBuf (z0.take 4)) ∧
    frameStep (appended Config.params 0x01 (withBuf (z0.take 4)).buf) = .extract 0 [0xEF, 0xDD, 0x0C, 0x00, 0x01] ∧
    validate [0xEF, 0xDD, 0x0C, 0x00, 0x01] (withBuf (z0.take 4)).cksumMode = false := by
  refine ⟨inv_of_short _ (by decide) (by decide), ?_, by decide⟩
  show frameStep (appended Config.params 0x01 (z0.take 4)) = _
  rw [appended_below _ _ (by decide)]
  decide

/-- PushReportsValidPacket and PacketEventOrder: a valid EVENT packet, an unknown one, and one of every terminal kind. -/
theorem witness_PushReportsValidPacket_event :
    Inv tp (withBuf (lit.take 12)) ∧ frameStep (appended tp 0x07 (lit.take 12)) = .extract 0 lit ∧
    validate lit .split = true ∧ tp.msgKind (lit.getD 2 0) = .event :=
  ⟨inv_of_short_tp _ (by decide) (by decide), by decide, by decide, by decide⟩

theorem witness_PushReportsValidPacket_unknown :
    Inv tp (withBuf [0xEF, 0xDD, 0x42, 0x00]) ∧
    frameStep (appended tp 0x00 [0xEF, 0xDD, 0x42, 0x00]) = .extract 0 [0xEF, 0xDD, 0x42, 0x00, 0x00] ∧
    validate [0xEF, 0xDD, 0x42, 0x00, 0x00] .split = true ∧ tp.msgKind 0x42 = .unknown :=
  ⟨inv_of_short_tp _ (by decide) (by decide), by decide, by decide, by decide⟩

theorem witness_PushReportsValidPacket_terminal (k : MsgKind) (h : k ≠ .event) :
    Inv (tpKind k h) (withBuf [0xEF, 0xDD, 0x08, 0x00]) ∧
    frameStep (appended (tpKind k h) 0x00 [0xEF, 0xDD, 0x08, 0x00]) = .extract 0 [0xEF, 0xDD, 0x08, 0x00, 0x00] ∧
    validate [0xEF, 0xDD, 0x08, 0x00, 0x00] .split = true ∧ (tpKind k h).msgKind 0x08 = k :=
  ⟨⟨by rw [Memory.wf_iff]; show 4 ≤ 260; decide, by decide⟩,
    (show frameStep [0xEF, 0xDD, 0x08, 0x00, 0x00] = _ by decide), by decide, rfl⟩

theorem witness_PacketEventOrder_invalid : validate [0xEF, 0xDD, 0x0C, 0x00, 0x01] State.reset.cksumMode = false := by decide

/-- NoiseThenPacketFramesPacket: an isolated M1 before a valid packet (FA-3), and longer noise. -/
theorem witness_NoiseThenPacketFramesPacket :
    State.reset.buf = [] ∧ Framed lit ∧ headerScan ([0xEF] ++ lit) 0 = some 1 ∧
    headerScan ([0x00, 0xEF, 0x11] ++ lit) 0 = some 3 ∧ validate lit State.reset.cksumMode = true :=
  ⟨rfl, ⟨by decide, by decide, 0x08, by decide, by decide⟩, by decide, by decide, by decide⟩

theorem witness_ChunkingDoesNotMatter : quiescent (withBuf [0x00, 0xEF]).buf = true := by decide

theorem witness_BoundedBufferMatchesUnbounded : Inv tp (withBuf (List.replicate 260 0)) :=
  inv_of_short_tp _ (Nat.le_of_eq List.length_replicate) (quiescent_zeros 260)

/-- PushnMatchesChunkFraming: a trailing M1 in the buffer, completed by the chunk. -/
theorem witness_PushnMatchesChunkFraming : Inv tp (withBuf [0x00, 0xEF]) := inv_of_short_tp _ (by decide) (by decide)

/-- ModeChangeBeforeLastByteApplies: all but the last byte of DI-4's packet emit nothing, and its last byte completes it. The
packet passes under SUM_TAILS and fails under SUM_LAST. -/
theorem witness_ModeChangeBeforeLastByteApplies :
    (∀ n ≤ ([0xEF, 0xDD, 0x0C, 0x01, 0x01] : List Byte).length,
      (pushAll tp (([0xEF, 0xDD, 0x0C, 0x01, 0x01] : List Byte).take n) State.reset).out = State.reset.out) ∧
    Inv tp State.reset ∧
    frameStep (appended tp 0x00 (pushAll tp [0xEF, 0xDD, 0x0C, 0x01, 0x01] State.reset).buf) =
      .extract 0 [0xEF, 0xDD, 0x0C, 0x01, 0x01, 0x00] ∧
    validate [0xEF, 0xDD, 0x0C, 0x01, 0x01, 0x00] .sumTails = true ∧
    validate [0xEF, 0xDD, 0x0C, 0x01, 0x01, 0x00] .sumLast = false :=
  ⟨by decide, inv_of_short_tp [] (by decide) (by decide), by decide, by decide, by decide⟩

theorem witness_BytesAfterResetAreNoise : headerScan [0x55, 0x08, 0x01, 0x5B, 0x0E] 0 = none := by decide

/-- LeadingRecordsAreApplied: EV-1. -/
theorem witness_LeadingRecordsAreApplied : RecordsOK tp [(0x06, [0x55]), (0x08, [0x01])] := by
  unfold RecordsOK
  decide

end Sys2Proof.Tests
end

section
/-! The scanner's least marker pair, and the packet that `frameStep` takes out of a buffer (40_header_scanner.md R120,
42_frame_assembler.md R150, R151). -/

namespace Sys2Proof.Safety

open Sys2Proof.Machine

theorem pairAt_cons_succ (x : Byte) (m : List Byte) (i : Nat) : PairAt (x :: m) (i + 1) ↔ PairAt m i := Iff.rfl

theorem pairAt_cons_cons_zero (x y : Byte) (m : List Byte) :
    PairAt (x :: y :: m) 0 ↔ x = Config.m1 ∧ y = Config.m2 := by
  simp [PairAt]

theorem not_pairAt_singleton (x : Byte) (i : Nat) : ¬ PairAt [x] i := by
  simp [PairAt]

/-- The scan answers the least index of a marker pair. -/
theorem scanFrom_zero_eq_some {m : List Byte} {h : Nat} :
    scanFrom m 0 = some h ↔ PairAt m h ∧ ∀ i < h, ¬ PairAt m i := by
  induction m generalizing h with
  | nil => simp [PairAt]
  | cons x t ih =>
    cases t with
    | nil => simp [not_pairAt_singleton]
    | cons y rest =>
      rw [scanFrom_cons_cons]
      split
      next hm =>
        have hp := (pairAt_cons_cons_zero x y rest).mpr hm
        constructor
        · rintro ⟨rfl⟩
          exact ⟨hp, fun i hi => absurd hi (Nat.not_lt_zero i)⟩
        · rintro ⟨-, hleast⟩
          have h0 : h = 0 := Nat.eq_zero_of_not_pos fun hpos => hleast 0 hpos hp
          rw [h0]
      next hm =>
        have hp := mt (pairAt_cons_cons_zero x y rest).mp hm
        rw [scanFrom_eq_map]
        cases h with
        | zero => simp [hp]
        | succ h =>
          have hshift : (∀ i < h + 1, ¬ PairAt (x :: y :: rest) i) ↔ ∀ i < h, ¬ PairAt (y :: rest) i :=
            ⟨fun H i hi => H (i + 1) (Nat.succ_lt_succ hi), fun H i hi => by
              cases i with
              | zero => exact hp
              | succ i => exact H i (Nat.lt_of_succ_lt_succ hi)⟩
          rw [hshift, pairAt_cons_succ, ← ih]
          simp

theorem headerScan_zero_eq_some {m : List Byte} {h : Nat} :
    headerScan m 0 = some h ↔ PairAt m h ∧ ∀ i < h, ¬ PairAt m i := by
  rw [headerScan_zero, scanFrom_zero_eq_some]

/-- The n + 5 bytes from a marker pair on, n the byte at offset 3, are laid out as a packet. -/
theorem framed_of_pairAt {m : List Byte} {h : Nat} {n : Byte} (hp : PairAt m h) (hn : m[h + 3]? = some n)
    (hlen : h + (n.toNat + 5) ≤ m.length) : Framed (slice h (h + (n.toNat + 5)) m) := by
  obtain ⟨h1, h2⟩ := hp
  have hread (i : Nat) (hi : i < 5) : (slice h (h + (n.toNat + 5)) m)[i]? = m[h + i]? := by
    rw [slice_add, List.getElem?_take_of_lt (by omega), List.getElem?_drop]
  refine ⟨(hread 0 (by decide)).trans h1, (hread 1 (by decide)).trans h2, n, (hread 3 (by decide)).trans hn, ?_⟩
  rw [slice_length]
  omega

/-- The length byte bounds a packet's length (R8, R88). -/
theorem Framed.length_bounds {p : List Byte} (hp : Framed p) : 5 ≤ p.length ∧ p.length ≤ 260 := by
  obtain ⟨-, -, n, -, hlen⟩ := hp
  have := n.isLt
  omega

/-- Settles O37: the scanner's answer is the least marker pair, and what is taken from there on is one packet. -/
theorem extractedPacketIsFramed : Obligations.ExtractedPacketIsFramed := by
  intro m h p e
  obtain ⟨hscan, n, hn, hlen, rfl⟩ := frameStep_extract e
  obtain ⟨hpair, hnoise⟩ := headerScan_zero_eq_some.mp hscan
  have hframed : Framed (slice h (h + (n.toNat + 5)) m) := framed_of_pairAt hpair hn hlen
  have hplen : (slice h (h + (n.toNat + 5)) m).length = n.toNat + 5 := by
    rw [slice_length]
    omega
  refine ⟨hframed, hframed.length_bounds.1, hframed.length_bounds.2, ?_, hnoise⟩
  rw [hplen, slice_add, ← List.take_add, List.take_append_drop]

end Sys2Proof.Safety
end

section
/-! A region of one whole event record (44_event_decoder.md R195), and the weight record of this block (30_encoding.md R92). -/

namespace Sys2Proof.Machine

theorem evKind_evtWeight (cfg : Params) : evKind cfg cfg.evtWeight = some .weight := by simp [evKind]

/-- At the end of the region decoding is over, whatever passes are left. -/
theorem decodeLoop_of_length_le (cfg : Params) {E : List Byte} (fuel : Nat) {c : Nat} (s : State) (h : E.length ≤ c) :
    decodeLoop cfg E fuel c s = s := by
  cases fuel with
  | zero => rfl
  | succ fuel => exact if_neg (Nat.not_lt.mpr h)

/-- A region that is exactly one whole record: the record is applied, and nothing else happens. -/
theorem decodeEvents_single_record (cfg : Params) {t : Byte} {k : EvKind} {body : List Byte} (s : State)
    (hk : evKind cfg t = some k) (hb : body.length = bodyLength k) :
    decodeEvents cfg (t :: body) s = applyEvent cfg k body s := by
  have hbody : slice 1 (1 + bodyLength k) (t :: body) = body := by
    rw [slice_add, ← hb]
    simp
  have hend : (t :: body).length ≤ 1 + bodyLength k := by
    rw [List.length_cons]
    omega
  have hfits : ¬ 1 + bodyLength k > (t :: body).length := by
    rw [List.length_cons]
    omega
  have hk' : evKind cfg (byteAt (t :: body) 0) = some k := hk
  rw [decodeEvents, List.length_cons, decodeLoop]
  simp only [hk', Nat.zero_add, if_neg hfits, hbody, decodeLoop_of_length_le cfg _ _ hend]
  simp

/-- Settles O57: the record is applied as a weight record, and this block's offsets are 3 and 4. -/
theorem weightOffsetsOfThisBlock : Obligations.WeightOffsetsOfThisBlock := by
  intro s b0 b1 b2 b3 b4 b5
  have happly : decodeEvents Config.params [Config.params.evtWeight, b0, b1, b2, b3, b4, b5] s =
      applyWeight Config.params [b0, b1, b2, b3, b4, b5] s :=
    decodeEvents_single_record Config.params s (evKind_evtWeight Config.params) rfl
  rw [happly]
  exact ⟨rfl, rfl, rfl⟩

end Sys2Proof.Machine
end

section
/-! What the framing loop does to BUF (42_frame_assembler.md R150 to R153): a pass takes bytes off the front, and the loop
ends quiescent. -/

namespace Sys2Proof.Machine

theorem quiescent_iff_not_extract (m : Memory) : quiescent m = true ↔ ∀ h p, frameStep m ≠ .extract h p := by
  unfold quiescent
  cases frameStep m <;> simp

/-- An extracted packet has the length its length byte says, and ends within the buffer. -/
theorem frameStep_extract_length {m : Memory} {h : Nat} {p : List Byte} (e : frameStep m = .extract h p) :
    5 ≤ p.length ∧ h + p.length ≤ m.length := by
  obtain ⟨-, n, -, hlen, rfl⟩ := frameStep_extract e
  rw [slice_length]
  omega

theorem framingLoop_of_quiescent (cfg : Params) (fuel : Nat) {s : State} (hq : quiescent s.buf = true) :
    framingLoop cfg fuel s = s := by
  rw [quiescent_iff_not_extract] at hq
  cases fuel with
  | zero => rfl
  | succ fuel =>
    rw [framingLoop_succ]
    split
    · rfl
    · rfl
    · next h p e => exact absurd e (hq h p)

theorem framingLoop_of_extract (cfg : Params) (fuel : Nat) {s : State} {h : Nat} {p : List Byte}
    (e : frameStep s.buf = .extract h p) :
    framingLoop cfg (fuel + 1) s = framingLoop cfg fuel (handlePacket cfg p (bufDropFront (h + p.length) s)) := by
  simp only [framingLoop_succ, e]

/-- BUF after one pass of the loop. -/
theorem handlePacket_bufDropFront_buf (cfg : Params) (p : List Byte) (k : Nat) (s : State) :
    (handlePacket cfg p (bufDropFront k s)).buf = s.buf.drop k :=
  (handlePacket_frame cfg p (bufDropFront k s)).1

theorem quiescent_or_extract (m : Memory) : quiescent m = true ∨ ∃ h p, frameStep m = .extract h p := by
  rw [quiescent_iff_not_extract]
  by_cases hx : ∃ h p, frameStep m = .extract h p
  · exact .inr hx
  · exact .inl fun h p e => hx ⟨h, p, e⟩

/-- Each pass takes at least 5 bytes, so |BUF| passes reach quiescence (R153). -/
theorem framingLoop_quiescent (cfg : Params) (fuel : Nat) (s : State) (hf : s.buf.length ≤ fuel) :
    quiescent (framingLoop cfg fuel s).buf = true := by
  induction fuel generalizing s with
  | zero =>
    have hnil : s.buf = [] := List.eq_nil_of_length_eq_zero (Nat.le_zero.mp hf)
    have hq : quiescent s.buf = true := by rw [hnil]; rfl
    rwa [framingLoop_of_quiescent cfg 0 hq]
  | succ fuel ih =>
    obtain hq | ⟨h, p, e⟩ := quiescent_or_extract s.buf
    · rwa [framingLoop_of_quiescent cfg (fuel + 1) hq]
    · have hlen := frameStep_extract_length e
      rw [framingLoop_of_extract cfg fuel e]
      apply ih
      rw [handlePacket_bufDropFront_buf, List.length_drop]
      omega

theorem runFraming_quiescent (cfg : Params) (s : State) : quiescent (runFraming cfg s).buf = true :=
  framingLoop_quiescent cfg s.buf.length s le_rfl

theorem framingLoop_frame (cfg : Params) (fuel : Nat) (s : State) :
    (framingLoop cfg fuel s).buf <:+ s.buf ∧ (framingLoop cfg fuel s).cksumMode = s.cksumMode ∧
      (framingLoop cfg fuel s).cmds = s.cmds := by
  induction fuel generalizing s with
  | zero => exact ⟨List.suffix_rfl, rfl, rfl⟩
  | succ fuel ih =>
    obtain hq | ⟨h, p, e⟩ := quiescent_or_extract s.buf
    · rw [framingLoop_of_quiescent cfg (fuel + 1) hq]
      exact ⟨List.suffix_rfl, rfl, rfl⟩
    · rw [framingLoop_of_extract cfg fuel e]
      obtain ⟨hbuf, hmode, hcmds⟩ := ih (handlePacket cfg p (bufDropFront (h + p.length) s))
      obtain ⟨hbuf', hmode', hcmds'⟩ := handlePacket_frame cfg p (bufDropFront (h + p.length) s)
      rw [hbuf'] at hbuf
      exact ⟨hbuf.trans (List.drop_suffix ..), hmode.trans hmode', hcmds.trans hcmds'⟩

/-- Settles O39: each pass drops bytes from the front and handling a packet leaves BUF, the mode and the port. -/
theorem framingRemovesPrefix : Obligations.FramingRemovesPrefix :=
  fun cfg s => framingLoop_frame cfg s.buf.length s

/-- PUSH leaves the mode and the port as they are. -/
theorem push_frame (cfg : Params) (b : Byte) (s : State) :
    (push cfg b s).cksumMode = s.cksumMode ∧ (push cfg b s).cmds = s.cmds := by
  obtain ⟨-, hmode, hcmds⟩ := framingLoop_frame cfg (bufAppend cfg b s).buf.length (bufAppend cfg b s)
  rw [bufAppend_eq] at hmode hcmds
  rw [push, runFraming, bufAppend_eq]
  exact ⟨hmode, hcmds⟩

end Sys2Proof.Machine
end

section
/-! A step is the command word's effect `perform`, which is one of five state functions (30_encoding.md R82 to R84,
45_commands.md R230). -/

namespace Sys2Proof.Safety

open Sys2Proof.Machine

theorem cmdWord_fields (w : Word16) : cmdWord (opField w) (dataField w) = w :=
  (BitVec.extractLsb'_append_extractLsb'_eq_extractLsb' rfl).trans BitVec.extractLsb'_eq_self

/-- A word the decoder accepts is the encoding of its instruction, whose data byte is legal. -/
theorem encode_of_decode_legal {w : Word16} {i : Instr} (hd : decode w = .legal i) :
    encode i = w ∧ i.wellFormed = true := by
  have hw := cmdWord_fields w
  unfold decode at hd
  dsimp only at hd
  split_ifs at hd <;> cases hd <;> simp_all [encode, Instr.wellFormed]

/-- SETMODE refuses exactly the data bytes 3 and above. -/
theorem modeOfByte_isSome (m : Byte) : (∃ k, modeOfByte m = some k) ↔ m.toNat ≤ 2 := by
  have hcases : m.toNat ≤ 2 ↔ m = 0 ∨ m = 1 ∨ m = 2 := by
    simp only [← BitVec.toNat_inj]
    simp
    omega
  rw [hcases]
  unfold modeOfByte
  split_ifs <;> simp_all

/-- What a command word can do, as a state function. -/
theorem perform_cases (cfg : Params) (w : Word16) :
    (∃ b, perform cfg w = push cfg b) ∨ perform cfg w = softReset ∨
    (∃ m k, w = encode (.setmode m) ∧ modeOfByte m = some k ∧ perform cfg w = setMode k) ∨
    (∃ x, perform cfg w = readReg x) ∨ perform cfg w = illegalCommand w := by
  cases hd : decode w with
  | illegal why => exact .inr (.inr (.inr (.inr (by funext s; simp only [perform, performWith, hd]))))
  | legal i =>
    cases i with
    | push b => exact .inl ⟨b, by funext s; simp only [perform, performWith, hd, push]⟩
    | reset => exact .inr (.inl (by funext s; simp only [perform, performWith, hd]))
    | setmode m =>
      have hw := (encode_of_decode_legal hd).1.symm
      cases hm : modeOfByte m with
      | some k => exact .inr (.inr (.inl ⟨m, k, hw, hm, by funext s; simp only [perform, performWith, hd, hm]⟩))
      | none => exact .inr (.inr (.inr (.inr (by funext s; simp only [perform, performWith, hd, hm]))))
    | rdreg r =>
      cases hr : regOfByte r with
      | some x => exact .inr (.inr (.inr (.inl ⟨x, by funext s; simp only [perform, performWith, hd, hr]⟩)))
      | none => exact .inr (.inr (.inr (.inr (by funext s; simp only [perform, performWith, hd, hr]))))

theorem exec_eq_perform {w : Word16} {i : Instr} (hd : decode w = .legal i) (s : State) :
    exec i s = .next (perform Config.params w s) := by
  have hw := (encode_of_decode_legal hd).1
  rw [exec_cases]
  cases i with
  | push b => simp only [perform, performWith, hd, push]
  | reset => simp only [perform, performWith, hd]
  | setmode m => cases hm : modeOfByte m <;> simp only [perform, performWith, hd, hm, hw]
  | rdreg r => cases hr : regOfByte r <;> simp only [perform, performWith, hd, hr, hw]

theorem step_of_cmds_nil {s : State} (hc : s.cmds = []) : step s = .next s := by
  simp only [step, fetch_eq_none.mpr hc, execIdle, idle]

theorem step_of_cmds_cons {s : State} {w : Word16} {rest : List Word16} (hc : s.cmds = w :: rest) :
    step s = .next (perform Config.params w { s with cmds := rest }) := by
  have hf : fetch s = some (w, { s with cmds := rest }) := fetch_eq_some.mpr ⟨rest, hc, rfl⟩
  cases hd : decode w with
  | legal i => simp only [step, hf, hd, exec_eq_perform hd]
  | illegal why => simp only [step, hf, hd, execIllegal, perform, performWith]

/-- A step does nothing, or takes a word off the port and performs it. -/
theorem step_eq_next {s t : State} (h : step s = .next t) :
    (s.cmds = [] ∧ t = s) ∨
    ∃ w rest, s.cmds = w :: rest ∧ t = perform Config.params w { s with cmds := rest } := by
  cases hc : s.cmds with
  | nil =>
    rw [step_of_cmds_nil hc] at h
    exact .inl ⟨rfl, (Host.Outcome.next.inj h).symm⟩
  | cons w rest =>
    rw [step_of_cmds_cons hc] at h
    exact .inr ⟨w, rest, rfl, (Host.Outcome.next.inj h).symm⟩

end Sys2Proof.Safety
end

section
/-! The invariant between commands (10_state.md R21, R26), and what the control register and STATUS show. -/

namespace Sys2Proof.Safety

open Sys2Proof.Machine

theorem inv_of_buf_nil (cfg : Params) {s : State} (hb : s.buf = []) : Inv cfg s := by
  rw [Inv, hb]
  exact ⟨by simp [Memory.wf], rfl⟩

/-- PUSH meets the invariant by the loop's own end; framing only shortens a buffer that fits. -/
theorem push_inv (cfg : Params) (b : Byte) {s : State} (hs : Inv cfg s) : Inv cfg (push cfg b s) := by
  have hfits : (bufAppend cfg b s).buf.length ≤ cfg.bufCap :=
    (Memory.wf_iff ..).mp (bufAppend_wf cfg b s hs.1)
  have hsuffix : (push cfg b s).buf <:+ (bufAppend cfg b s).buf := (framingRemovesPrefix cfg _).1
  exact ⟨(Memory.wf_iff ..).mpr (hsuffix.length_le.trans hfits), runFraming_quiescent ..⟩

theorem perform_inv (cfg : Params) (w : Word16) {s : State} (hs : Inv cfg s) : Inv cfg (perform cfg w s) := by
  obtain ⟨b, e⟩ | e | ⟨m, k, -, -, e⟩ | ⟨x, e⟩ | e := perform_cases cfg w <;> rw [e]
  · exact push_inv cfg b hs
  · exact inv_of_buf_nil cfg rfl
  · exact hs
  · exact hs
  · exact hs

/-- Settles O25: only PUSH and RESET write BUF, and both leave it within capacity and quiescent. -/
theorem stepKeepsInvariant : Obligations.StepKeepsInvariant := by
  intro s t hs h
  obtain ⟨-, rfl⟩ | ⟨w, rest, -, rfl⟩ := step_eq_next h
  · exact hs
  · exact perform_inv Config.params w hs

/-- Settles O26: after reset BUF is empty. -/
theorem resetMeetsInvariant : Obligations.ResetMeetsInvariant := inv_of_buf_nil Config.params rfl

/-- Every command but a legal SETMODE keeps the variant. -/
theorem perform_cksumMode (cfg : Params) (w : Word16) (s : State) :
    (perform cfg w s).cksumMode = s.cksumMode ∨
      ∃ m, w = encode (.setmode m) ∧ modeOfByte m = some (perform cfg w s).cksumMode := by
  obtain ⟨b, e⟩ | e | ⟨m, k, hw, hm, e⟩ | ⟨x, e⟩ | e := perform_cases cfg w <;> rw [e]
  · exact .inl (push_frame cfg b s).1
  · exact .inl rfl
  · exact .inr ⟨m, hw, hm⟩
  · exact .inl rfl
  · exact .inl rfl

/-- Settles O24: the word that changed the variant stood at the head of the port. -/
theorem onlySetmodeChangesVariant : Obligations.OnlySetmodeChangesVariant := by
  intro s t h hne
  obtain ⟨-, rfl⟩ | ⟨w, rest, hc, rfl⟩ := step_eq_next h
  · exact absurd rfl hne
  · obtain hkeep | ⟨m, hw, hm⟩ := perform_cksumMode Config.params w { s with cmds := rest }
    · exact absurd hkeep hne
    · exact ⟨m, rest, (modeOfByte_isSome m).mp ⟨_, hm⟩, hc.trans (by rw [hw]), hm⟩

/-- Settles O14: each listed byte is its variant's number. -/
theorem setmodeSelectsVariant : Obligations.SetmodeSelectsVariant := by
  intro s m k hmk
  have hm : m = (modeBits k).setWidth 8 := by
    simp only [List.mem_cons, Prod.mk.injEq, List.not_mem_nil, or_false] at hmk
    obtain ⟨rfl, rfl⟩ | ⟨rfl, rfl⟩ | ⟨rfl, rfl⟩ := hmk <;> rfl
  refine ⟨?_, ?_⟩
  · rw [exec_cases]
    simp only [(modeOfByte_eq_some m k).mpr hm, setMode]
  · subst hm
    cases k <;> rfl

/-- NOT_FOUND: the buffer holds no marker pair. -/
theorem headerScan_zero_eq_none {m : List Byte} : headerScan m 0 = none ↔ ∀ i, ¬ PairAt m i := by
  classical
  constructor
  · intro hnone i hi
    have hex : ∃ i, PairAt m i := ⟨i, hi⟩
    have hsome : headerScan m 0 = some (Nat.find hex) :=
      headerScan_zero_eq_some.mpr ⟨Nat.find_spec hex, fun j hj => Nat.find_min hex hj⟩
    rw [hnone] at hsome
    cases hsome
  · intro hno
    rw [Option.eq_none_iff_forall_ne_some]
    exact fun h hscan => hno h (headerScan_zero_eq_some.mp hscan).1

theorem frameStep_eq_idle (m : Memory) : frameStep m = .idle ↔ headerScan m 0 = none := by
  unfold frameStep
  split
  · simp_all
  · split
    · simp_all
    · dsimp only
      split <;> simp_all

/-- STATUS is the bit FRAMING. -/
theorem regValue_status (s : State) : regValue .status s = if headerScan s.buf 0 = none then 0 else 1 := by
  unfold regValue framing
  cases headerScan s.buf 0 <;> rfl

/-- Settles O20: a quiescent buffer is idle, without a marker pair, or waits for the first pair's packet. -/
theorem framingStatusMeaning : Obligations.FramingStatusMeaning := by
  intro s hq
  simp only [regValue_status, ← headerScan_zero_eq_none, ← frameStep_eq_idle]
  rw [quiescent_iff_not_extract] at hq
  cases hf : frameStep s.buf with
  | idle => simp
  | wait => simp
  | extract h p => exact absurd hf (hq h p)

/-- Settles O19: a power of ten is not 0, so the division is exact; W_NEG is bit 0 of WFLAGS. -/
theorem weightValueIsScaledMagnitude : Obligations.WeightValueIsScaledMagnitude := by
  intro sc
  have hpow : (10 : ℚ) ^ sc.wDiv.toNat ≠ 0 := pow_ne_zero _ (by norm_num)
  refine ⟨div_mul_cancel₀ _ hpow, fun hmag => ?_, fun hneg => ?_⟩
  · simp [weightValue, hmag]
  · rw [wflagsBits, BitVec.getLsbD_append, hneg]
    rfl

end Sys2Proof.Safety
end

section
/-! What an operation appends to OUT (10_state.md R30), and that ERRCNT counts the CKSUM_ERR events among it (R22). Composing
operations composes both facts, so they are followed together from the event decoder up to the step. -/

namespace Sys2Proof.Safety

open Sys2Proof.Machine

/-- From s, f appends es to OUT without reading OUT, and ERRCNT goes up by the CKSUM_ERR events in es, saturating. -/
structure Emits (f : State → State) (s : State) (es : List OutEvent) : Prop where
  unread : ∀ o : List OutEvent, f { s with out := o } = { f s with out := o ++ es }
  counted : (f s).errcnt.toNat = min (2 ^ 32 - 1) (s.errcnt.toNat + es.countP isCksumErr)

theorem Emits.out {f : State → State} {s : State} {es : List OutEvent} (hf : Emits f s es) :
    (f s).out = s.out ++ es := congrArg State.out (hf.unread s.out)

theorem Emits.comp {f g : State → State} {s : State} {es es' : List OutEvent} (hf : Emits f s es)
    (hg : Emits g (f s) es') : Emits (fun s => g (f s)) s (es ++ es') where
  unread o := by
    dsimp only
    rw [hf.unread, hg.unread, List.append_assoc]
  counted := by
    rw [hg.counted, hf.counted, List.countP_append]
    omega

/-- Whether f emits es from s depends on f at s, whatever OUT holds there, only. -/
theorem Emits.congr {f g : State → State} {s : State} {es : List OutEvent} (hf : Emits f s es)
    (hfg : ∀ o : List OutEvent, g { s with out := o } = f { s with out := o }) : Emits g s es where
  unread o := by
    have hs : g s = f s := hfg s.out
    rw [hfg, hs, hf.unread]
  counted := by
    have hs : g s = f s := hfg s.out
    rw [hs, hf.counted]

/-- An update that touches neither OUT nor ERRCNT. -/
theorem Emits.silent {f : State → State} {s : State}
    (hout : ∀ o : List OutEvent, f { s with out := o } = { f s with out := o })
    (herr : (f s).errcnt = s.errcnt) : Emits f s [] where
  unread o := by rw [hout, List.append_nil]
  counted := by
    have := s.errcnt.isLt
    rw [herr, List.countP_nil]
    omega

theorem emits_id (s : State) : Emits id s [] := .silent (fun _ => rfl) rfl

/-- Any event but CKSUM_ERR is emitted without counting. -/
theorem emits_emit (e : OutEvent) (s : State) (he : isCksumErr e = false) : Emits (emit e) s [e] where
  unread _ := rfl
  counted := by
    have := s.errcnt.isLt
    simp only [emit_errcnt, List.countP_cons, List.countP_nil, he]
    simp
    omega

/-- CKSUM_ERR is emitted with the count going up (R261). -/
theorem emits_cksumErr (arg : Word16) (s : State) :
    Emits (fun s => log .cksumErr arg (countError s)) s [.log .cksumErr arg] where
  unread _ := rfl
  counted := satInc_toNat s.errcnt

theorem applyEvent_emits (cfg : Params) (k : EvKind) (body : List Byte) (s : State) :
    ∃ es, Emits (applyEvent cfg k body) s es := by
  have hcount (m : Meas) : (applyEvent cfg k body s).errcnt.toNat =
      min (2 ^ 32 - 1) (s.errcnt.toNat + [OutEvent.meas m].countP isCksumErr) := by
    obtain ⟨⟨-, herr, -, -⟩, -⟩ := applyEvent_frame cfg k body s
    rw [herr]
    exact (emits_emit (.meas m) s rfl).counted
  cases k <;> exact ⟨[.meas _], fun _ => rfl, hcount _⟩

theorem decodeLoop_emits (cfg : Params) (E : List Byte) (fuel c : Nat) (s : State) :
    ∃ es, Emits (decodeLoop cfg E fuel c) s es := by
  induction fuel generalizing c s with
  | zero => exact ⟨[], emits_id s⟩
  | succ fuel ih =>
    by_cases hc : c < E.length
    · cases hk : evKind cfg (byteAt E c) with
      | none => exact ⟨_, (emits_emit _ s rfl).congr fun o => by simp only [decodeLoop, if_pos hc, hk]; rfl⟩
      | some k =>
        by_cases hn : c + 1 + bodyLength k > E.length
        · exact ⟨_, (emits_emit _ s rfl).congr fun o => by simp only [decodeLoop, if_pos hc, hk, if_pos hn]; rfl⟩
        · obtain ⟨es, hrec⟩ := applyEvent_emits cfg k (slice (c + 1) (c + 1 + bodyLength k) E) s
          obtain ⟨es', hrest⟩ := ih (c + 1 + bodyLength k) _
          exact ⟨_, (hrec.comp hrest).congr fun o => by simp only [decodeLoop, if_pos hc, hk, if_neg hn]⟩
    · exact ⟨[], (emits_id s).congr fun o => by simp only [decodeLoop, if_neg hc, id]⟩

theorem dispatch_emits (cfg : Params) (p : List Byte) (s : State) : ∃ es, Emits (dispatch cfg p) s es := by
  cases hk : cfg.msgKind (packetType p) with
  | event =>
    obtain ⟨es, hes⟩ := decodeLoop_emits cfg (eventRegion p) (eventRegion p).length 0 s
    exact ⟨es, hes.congr fun o => by simp only [dispatch, hk, decodeEvents]⟩
  | unknown => exact ⟨_, (emits_emit _ s rfl).congr fun o => by simp only [dispatch, hk]; rfl⟩
  | sysAck | tareAck | info | status | identAck | timerNotice =>
    exact ⟨[], (emits_id s).congr fun o => by simp only [dispatch, hk, id]⟩

theorem handlePacket_emits (cfg : Params) (p : List Byte) (s : State) :
    ∃ es, Emits (handlePacket cfg p) s es := by
  cases hv : validate p s.cksumMode with
  | true =>
    have hpkt := emits_emit (.pkt (cfg.msgKind (packetType p)) p) s rfl
    obtain ⟨es, hes⟩ := dispatch_emits cfg p (emit (.pkt (cfg.msgKind (packetType p)) p) s)
    exact ⟨_, (hpkt.comp hes).congr fun o => if_pos hv⟩
  | false =>
    have hbad : ¬ validate p s.cksumMode = true := by simp [hv]
    exact ⟨_, (emits_cksumErr ((packetType p).setWidth 16) s).congr fun o => if_neg hbad⟩

theorem framingLoop_emits (cfg : Params) (fuel : Nat) (s : State) : ∃ es, Emits (framingLoop cfg fuel) s es := by
  induction fuel generalizing s with
  | zero => exact ⟨[], emits_id s⟩
  | succ fuel ih =>
    obtain hq | ⟨h, p, e⟩ := quiescent_or_extract s.buf
    · exact ⟨[], (emits_id s).congr fun o => framingLoop_of_quiescent cfg (fuel + 1) hq⟩
    · have hdrop : Emits (bufDropFront (h + p.length)) s [] := .silent (fun _ => rfl) rfl
      obtain ⟨es, hpacket⟩ := handlePacket_emits cfg p (bufDropFront (h + p.length) s)
      obtain ⟨es', hloop⟩ := ih (handlePacket cfg p (bufDropFront (h + p.length) s))
      exact ⟨_, ((hdrop.comp hpacket).comp hloop).congr fun o => framingLoop_of_extract cfg fuel e⟩

theorem push_emits (cfg : Params) (b : Byte) (s : State) : ∃ es, Emits (push cfg b) s es := by
  have happend : Emits (bufAppend cfg b) s [] := .silent (fun _ => by simp only [bufAppend_eq]) (by rw [bufAppend_eq])
  obtain ⟨es, hloop⟩ := framingLoop_emits cfg (bufAppend cfg b s).buf.length (bufAppend cfg b s)
  exact ⟨_, (happend.comp hloop).congr fun o => by simp only [push, runFraming, bufAppend_eq]⟩

theorem readReg_emits (x : Reg) (s : State) : Emits (readReg x) s [.rsp (regNumber x) (regValue x s)] :=
  (emits_emit _ s rfl).congr fun o => by cases x <;> rfl

theorem perform_emits (cfg : Params) (w : Word16) (s : State) : ∃ es, Emits (perform cfg w) s es := by
  obtain ⟨b, e⟩ | e | ⟨m, k, -, -, e⟩ | ⟨x, e⟩ | e := perform_cases cfg w <;> rw [e]
  · exact push_emits cfg b s
  · exact ⟨[], .silent (fun _ => rfl) rfl⟩
  · exact ⟨[], .silent (fun _ => rfl) rfl⟩
  · exact ⟨_, readReg_emits x s⟩
  · exact ⟨_, emits_emit _ s rfl⟩

/-- A step is one state function whatever OUT holds, and that function emits. -/
theorem step_emits {s t : State} (h : step s = .next t) :
    ∃ f es, t = f s ∧ Emits f s es ∧ ∀ o : List OutEvent, step { s with out := o } = .next (f { s with out := o }) := by
  obtain ⟨hc, rfl⟩ | ⟨w, rest, hc, rfl⟩ := step_eq_next h
  · exact ⟨id, [], rfl, emits_id t, fun o => step_of_cmds_nil hc⟩
  · have htake : Emits (fun s => { s with cmds := rest }) s [] := .silent (fun _ => rfl) rfl
    obtain ⟨es, hes⟩ := perform_emits Config.params w { s with cmds := rest }
    exact ⟨_, _, rfl, htake.comp hes, fun o => step_of_cmds_cons hc⟩

/-- Settles O21: what a step emits and what it counts are followed together. -/
theorem errcntCountsChecksumErrors : Obligations.ErrcntCountsChecksumErrors := by
  intro s t h
  obtain ⟨f, es, rfl, hf, -⟩ := step_emits h
  exact ⟨es, hf.out, hf.counted⟩

/-- Settles O22: a step is one state function, which emits the same from any OUT. -/
theorem outIsWrittenAndNeverRead : Obligations.OutIsWrittenAndNeverRead := by
  intro s t h
  obtain ⟨f, es, rfl, hf, hstep⟩ := step_emits h
  exact ⟨es, hf.out, fun o => (hstep o).trans (congrArg _ (hf.unread o))⟩

end Sys2Proof.Safety
end

section
/-! What each command leaves unchanged (10_state.md R31), and the replies of RDREG (R29). -/

namespace Sys2Proof.Safety

open Sys2Proof.Machine

theorem exec_setmode_of_legal {m : Byte} {t : State} (s : State) (hm : m.toNat ≤ 2)
    (h : exec (.setmode m) s = .next t) : ∃ k, t = setMode k s := by
  obtain ⟨k, hk⟩ := (modeOfByte_isSome m).mpr hm
  rw [exec_cases] at h
  simp only [hk, Host.Outcome.next.injEq] at h
  exact ⟨k, h.symm⟩

/-- RDREG replies or, for an unassigned number, reports an illegal word: one event either way. -/
theorem exec_rdreg_emits_one {r : Byte} {s t : State} (h : exec (.rdreg r) s = .next t) : ∃ e, t = emit e s := by
  rw [exec_cases] at h
  cases hr : regOfByte r <;> simp only [hr, Host.Outcome.next.injEq] at h <;> exact ⟨_, h.symm⟩

/-- Settles O23, one command at a time. -/
theorem commandFrames : Obligations.CommandFrames := by
  intro s t
  refine ⟨fun b h => ?_, fun h => ?_, fun m hm h => ?_, fun r h => ?_⟩
  · obtain rfl : push Config.params b s = t := Host.Outcome.next.inj h
    obtain ⟨hmode, hcmds⟩ := push_frame Config.params b s
    obtain ⟨es, hes⟩ := push_emits Config.params b s
    exact ⟨hmode, hcmds, es, hes.out.symm⟩
  · obtain rfl : softReset s = t := Host.Outcome.next.inj h
    exact ⟨rfl, rfl, rfl, rfl⟩
  · obtain ⟨k, rfl⟩ := exec_setmode_of_legal s hm h
    exact ⟨rfl, rfl, rfl, rfl, rfl⟩
  · obtain ⟨e, rfl⟩ := exec_rdreg_emits_one h
    exact ⟨rfl, rfl, rfl, rfl, rfl⟩

/-- RDREG of an assigned number replies with the number and the register's value. -/
theorem exec_rdreg_regNumber (x : Reg) (s : State) {v : Nat} (hv : BitVec.ofNat 32 v = regValue x s) :
    exec (.rdreg (regNumber x)) s =
      .next { s with out := s.out ++ [.rsp (regNumber x) (BitVec.ofNat 32 v)] } := by
  rw [exec_cases]
  simp only [(regOfByte_eq_some (regNumber x) x).mpr rfl, readReg, emit, hv]

theorem ofNat_eq_regValue_status (s : State) :
    BitVec.ofNat 32 (if (headerScan s.buf 0).isSome then 1 else 0) = regValue .status s := by
  rw [regValue_status]
  cases headerScan s.buf 0 <;> rfl

theorem ofNat_eq_regValue_ctrl (s : State) :
    BitVec.ofNat 32 (match s.cksumMode with | .split => 0 | .sumTails => 1 | .sumLast => 2) = regValue .ctrl s := by
  unfold regValue
  cases s.cksumMode <;> rfl

theorem ofNat_eq_regValue_errcnt (s : State) : BitVec.ofNat 32 s.errcnt.toNat = regValue .errcnt s :=
  (BitVec.ofNat_toNat 32 s.errcnt).trans (BitVec.setWidth_eq s.errcnt)

/-- The 16 bits of BUFLEVEL hold the whole length while BUF is within capacity. -/
theorem ofNat_eq_regValue_buflevel {s : State} (hlen : s.buf.length ≤ Config.params.bufCap) :
    BitVec.ofNat 32 s.buf.length = regValue .buflevel s := by
  have hcap := Config.params.bufCap_max
  rw [regValue, ← BitVec.ofNat_toNat, BitVec.toNat_ofNat, Nat.mod_eq_of_lt (by omega)]

theorem ofNat_eq_regValue_wflags (s : State) :
    BitVec.ofNat 32 (4 * (match s.scale.wUnit with | .noUnit => 0 | .grams => 1 | .ounces => 2) +
      2 * s.scale.wStable.toNat + s.scale.wNeg.toNat) = regValue .wflags s := by
  simp only [regValue, wflagsBits]
  cases s.scale.wUnit <;> cases s.scale.wStable <;> cases s.scale.wNeg <;> rfl

/-- Settles O16: the reply to an assigned number, and each register's value as a number. -/
theorem rdregRepliesWithRegister : Obligations.RdregRepliesWithRegister := fun s =>
  ⟨exec_rdreg_regNumber .status s (ofNat_eq_regValue_status s),
   exec_rdreg_regNumber .ctrl s (ofNat_eq_regValue_ctrl s),
   exec_rdreg_regNumber .errcnt s (ofNat_eq_regValue_errcnt s),
   fun hlen => exec_rdreg_regNumber .buflevel s (ofNat_eq_regValue_buflevel hlen),
   exec_rdreg_regNumber .wmag s (BitVec.ofNat_toNat 32 _),
   exec_rdreg_regNumber .wdiv s (BitVec.ofNat_toNat 32 _),
   exec_rdreg_regNumber .wflags s (ofNat_eq_regValue_wflags s),
   exec_rdreg_regNumber .battery s (BitVec.ofNat_toNat 32 _),
   exec_rdreg_regNumber .tmrmin s (BitVec.ofNat_toNat 32 _),
   exec_rdreg_regNumber .tmrsec s (BitVec.ofNat_toNat 32 _),
   exec_rdreg_regNumber .tmrms s (BitVec.ofNat_toNat 32 _)⟩

end Sys2Proof.Safety
end

section
/-! The packet a PUSH completes (42_frame_assembler.md R158): it ends at the byte pushed, since the buffer before that byte,
also without its oldest byte at capacity, held no complete packet. -/

namespace Sys2Proof.Safety

open Sys2Proof.Machine

/-- A buffer is quiescent when the packet at its least marker pair, if its length is known, is incomplete. -/
theorem quiescent_iff (m : Memory) : quiescent m = true ↔
    ∀ h n, headerScan m 0 = some h → m[h + 3]? = some n → m.length < h + (n.toNat + 5) := by
  rw [quiescent_iff_not_extract]
  constructor
  · intro hq h n hscan hn
    by_contra hlen
    exact hq h (slice h (h + (n.toNat + 5)) m) (by simp only [frameStep, hscan, memRead, hn, if_neg hlen])
  · intro hshort h p e
    obtain ⟨hscan, n, hn, hlen, -⟩ := frameStep_extract e
    exact absurd (hshort h n hscan hn) (Nat.not_lt.mpr hlen)

theorem pairAt_drop_one (m : List Byte) (i : Nat) : PairAt (m.drop 1) i ↔ PairAt m (i + 1) := by
  simp only [PairAt, List.getElem?_drop, Nat.add_comm 1]

theorem pairAt_append_left {m l : List Byte} {i : Nat} (hi : i + 1 < m.length) : PairAt (m ++ l) i ↔ PairAt m i := by
  simp only [PairAt, List.getElem?_append_left hi, List.getElem?_append_left (Nat.lt_of_succ_lt hi)]

/-- In a quiescent buffer of 260 bytes or more no pair stands at the front: its packet, of at most 260 bytes, would be
complete. -/
theorem not_pairAt_zero_of_quiescent {m : Memory} (hq : quiescent m = true) (hlen : 260 ≤ m.length) :
    ¬ PairAt m 0 := by
  intro hpair
  have hscan : headerScan m 0 = some 0 :=
    headerScan_zero_eq_some.mpr ⟨hpair, fun i hi => absurd hi (Nat.not_lt_zero i)⟩
  have h3 : 3 < m.length := by omega
  have hshort := (quiescent_iff m).mp hq 0 m[3] hscan (List.getElem?_eq_getElem h3)
  have hbyte := m[3].isLt
  omega

theorem quiescent_drop_one {m : Memory} (hq : quiescent m = true) (hlen : 260 ≤ m.length) :
    quiescent (m.drop 1) = true := by
  rw [quiescent_iff]
  intro h n hscan hn
  obtain ⟨hpair, hleast⟩ := headerScan_zero_eq_some.mp hscan
  have hscan' : headerScan m 0 = some (h + 1) := by
    refine headerScan_zero_eq_some.mpr ⟨(pairAt_drop_one m h).mp hpair, fun i hi => ?_⟩
    cases i with
    | zero => exact not_pairAt_zero_of_quiescent hq hlen
    | succ i => exact mt (pairAt_drop_one m i).mpr (hleast i (Nat.lt_of_succ_lt_succ hi))
  have hn' : m[h + 1 + 3]? = some n := by
    rw [List.getElem?_drop] at hn
    rwa [show h + 1 + 3 = 1 + (h + 3) by omega]
  have hshort := (quiescent_iff m).mp hq (h + 1) n hscan' hn'
  rw [List.length_drop]
  omega

/-- A byte after a quiescent buffer can only complete a packet that it ends. -/
theorem extract_append_byte_ends {m : Memory} {b : Byte} {h : Nat} {p : List Byte} (hq : quiescent m = true)
    (e : frameStep (m ++ [b]) = .extract h p) : h + p.length = (m ++ [b]).length := by
  obtain ⟨hscan, n, hn, hlen, rfl⟩ := frameStep_extract e
  obtain ⟨hpair, hleast⟩ := headerScan_zero_eq_some.mp hscan
  have hplen : (slice h (h + (n.toNat + 5)) (m ++ [b])).length = n.toNat + 5 := by
    rw [slice_length]
    omega
  rw [hplen]
  by_contra hne
  rw [List.length_append, List.length_singleton] at hlen hne
  have hscan' : headerScan m 0 = some h :=
    headerScan_zero_eq_some.mpr ⟨(pairAt_append_left (by omega)).mp hpair,
      fun i hi => mt (pairAt_append_left (by omega)).mpr (hleast i hi)⟩
  have hn' : m[h + 3]? = some n := by rwa [memRead, List.getElem?_append_left (by omega)] at hn
  have hshort := (quiescent_iff m).mp hq h n hscan' hn'
  omega

/-- From a state that meets the invariant, the packet a PUSH completes ends at the byte pushed, overflow drop or not. -/
theorem extract_appended_ends {cfg : Params} {s : State} {b : Byte} {h : Nat} {p : List Byte} (hs : Inv cfg s)
    (e : frameStep (appended cfg b s.buf) = .extract h p) : h + p.length = (appended cfg b s.buf).length := by
  refine extract_append_byte_ends ?_ e
  split
  · next hfull => exact quiescent_drop_one hs.2 (hfull ▸ cfg.bufCap_min)
  · exact hs.2

/-- R158: that packet is the only one handled, with BUF empty. -/
theorem push_eq_handlePacket {cfg : Params} {s : State} {b : Byte} {h : Nat} {p : List Byte} (hs : Inv cfg s)
    (e : frameStep (appended cfg b s.buf) = .extract h p) :
    push cfg b s = handlePacket cfg p { s with buf := [] } := by
  have hall : (appended cfg b s.buf).drop (h + p.length) = [] := by rw [extract_appended_ends hs e, List.drop_length]
  obtain ⟨n, hn⟩ : ∃ n, (appended cfg b s.buf).length = n + 1 := ⟨_, List.length_append⟩
  have hquiet : quiescent (handlePacket cfg p { s with buf := [] }).buf = true := by
    rw [(handlePacket_frame ..).1]
    rfl
  calc push cfg b s = framingLoop cfg (n + 1) { s with buf := appended cfg b s.buf } := by
        rw [← hn, push, bufAppend_eq]
        rfl
    _ = framingLoop cfg n (handlePacket cfg p { s with buf := (appended cfg b s.buf).drop (h + p.length) }) :=
        framingLoop_of_extract cfg n e
    _ = handlePacket cfg p { s with buf := [] } := by rw [hall, framingLoop_of_quiescent cfg n hquiet]

/-- The saturating count of 32 bits stays at its greatest value alone. -/
theorem satInc_32 (v : BitVec 32) : satInc v = if v = 0xFFFFFFFF then 0xFFFFFFFF else v + 1 := by
  have hmax : v = 0xFFFFFFFF ↔ ¬ v.toNat < 2 ^ 32 - 1 := by
    have := v.isLt
    rw [← BitVec.toNat_inj]
    simp
    omega
  unfold satInc
  by_cases hv : v = 0xFFFFFFFF
  · rw [if_neg (hmax.mp hv), if_pos hv, hv]
  · rw [if_pos (not_not.mp (mt hmax.mpr hv)), if_neg hv]

/-- Settles O43: the packet is handled with BUF empty, and fails the variant in force. -/
theorem pushDropsInvalidPacket : Obligations.PushDropsInvalidPacket := by
  intro s b h p hs e hbad
  have hdrop : handlePacket Config.params p { s with buf := [] } =
      log .cksumErr ((packetType p).setWidth 16) (countError { s with buf := [] }) :=
    if_neg (by simp [hbad])
  have harg : (packetType p).setWidth 16 = BitVec.ofNat 16 (p.getD 2 0).toNat := (BitVec.ofNat_toNat 16 _).symm
  calc exec (.push b) s = .next (push Config.params b s) := rfl
    _ = .next (log .cksumErr ((packetType p).setWidth 16) (countError { s with buf := [] })) := by
        rw [push_eq_handlePacket hs e, hdrop]
    _ = _ := by rw [harg, ← satInc_32]; rfl

end Sys2Proof.Safety
end

section
/-! PUSH as an append and the framing loop (20_memory.md R64, 45_commands.md R231), and bytes without a marker pair: they
never leave a complete packet, so PUSH only appends them (70_reset_and_hazards.md R296). -/

namespace Sys2Proof.Safety

open Sys2Proof.Machine

theorem push_eq (cfg : Params) (b : Byte) (s : State) :
    push cfg b s = runFraming cfg { s with buf := appended cfg b s.buf } := by
  rw [push, bufAppend_eq, appended]

/-- Settles O40: PUSH is this block's append and framing loop. -/
theorem pushAppendsThenFrames : Obligations.PushAppendsThenFrames := fun s b =>
  congrArg Host.Outcome.next (push_eq Config.params b s)

/-- With no packet complete after the append, the framing loop makes no pass (R154). -/
theorem push_of_quiescent (cfg : Params) {b : Byte} {s : State} (hq : quiescent (appended cfg b s.buf) = true) :
    push cfg b s = { s with buf := appended cfg b s.buf } := by
  rw [push_eq]
  exact framingLoop_of_quiescent cfg _ hq

theorem quiescent_of_headerScan_eq_none {m : Memory} (hm : headerScan m 0 = none) : quiescent m = true := by
  rw [quiescent, (frameStep_eq_idle m).mpr hm]

theorem pairAt_append_right {m : List Byte} (l : List Byte) {i : Nat} (hi : PairAt m i) :
    PairAt (l ++ m) (l.length + i) := by
  obtain ⟨h1, h2⟩ := hi
  constructor
  · rwa [List.getElem?_append_right (Nat.le_add_right ..), Nat.add_sub_cancel_left]
  · rwa [Nat.add_assoc, List.getElem?_append_right (Nat.le_add_right ..), Nat.add_sub_cancel_left]

theorem PairAt.append {m : List Byte} {i : Nat} (hi : PairAt m i) (l : List Byte) : PairAt (m ++ l) i := by
  obtain ⟨hlt, -⟩ := List.getElem?_eq_some_iff.mp hi.2
  exact (pairAt_append_left hlt).mpr hi

/-- Bytes that stand together in a pair-free sequence are pair-free. -/
theorem headerScan_eq_none_of_isInfix {m l : List Byte} (hml : m <:+: l) (hl : headerScan l 0 = none) :
    headerScan m 0 = none := by
  obtain ⟨before, after, rfl⟩ := hml
  rw [headerScan_zero_eq_none] at hl ⊢
  exact fun i hi => hl _ ((pairAt_append_right before hi).append after)

/-- Appending to the last BUF_CAP bytes of a sequence keeps the last BUF_CAP of the longer sequence (R64). -/
theorem appended_lasts (cfg : Params) (b : Byte) (bs : List Byte) :
    appended cfg b (bs.drop (bs.length - cfg.bufCap)) =
      (bs ++ [b]).drop ((bs ++ [b]).length - cfg.bufCap) := by
  have hmin := cfg.bufCap_min
  have hlen : (bs ++ [b]).length = bs.length + 1 := List.length_append
  have hkept : (bs.drop (bs.length - cfg.bufCap)).length = bs.length - (bs.length - cfg.bufCap) := List.length_drop
  rw [hlen, List.drop_append_of_le_length (by omega)]
  by_cases hfull : cfg.bufCap ≤ bs.length
  · rw [appended, if_pos (by omega), List.drop_drop, Nat.sub_add_comm hfull]
  · rw [appended, if_neg (by omega), Nat.sub_eq_zero_of_le (by omega), Nat.sub_eq_zero_of_le (by omega)]

theorem pushAll_concat (cfg : Params) (bs : List Byte) (b : Byte) (s : State) :
    pushAll cfg (bs ++ [b]) s = push cfg b (pushAll cfg bs s) := List.foldl_concat ..

/-- From an empty buffer, pair-free bytes only fill BUF, which keeps the last BUF_CAP of them. -/
theorem pushAll_noise (cfg : Params) {bs : List Byte} (s : State) (hbs : headerScan bs 0 = none) :
    pushAll cfg bs { s with buf := [] } = { s with buf := bs.drop (bs.length - cfg.bufCap) } := by
  induction bs using List.reverseRecOn with
  | nil => rw [List.drop_nil]; rfl
  | append_singleton bs b ih =>
    have hquiet : quiescent (appended cfg b (bs.drop (bs.length - cfg.bufCap))) = true := by
      rw [appended_lasts]
      exact quiescent_of_headerScan_eq_none (headerScan_eq_none_of_isInfix (List.drop_suffix ..).isInfix hbs)
    rw [pushAll_concat, ih (headerScan_eq_none_of_isInfix ⟨[], [b], rfl⟩ hbs),
      push_of_quiescent cfg hquiet, appended_lasts]

/-- Settles O50: RESET empties BUF. -/
theorem bytesAfterResetAreNoise : Obligations.BytesAfterResetAreNoise :=
  fun cfg s _ hbs => pushAll_noise cfg (softReset s) hbs

end Sys2Proof.Safety
end

section
/-! What the operations do not read: decoding reads SCALE and OUT only (43_dispatcher.md R183), no command reads the port, and
no register shows OUT. So a command's effect is the same whatever words wait behind it (20_memory.md R66, R71). -/

namespace Sys2Proof.Safety

open Sys2Proof.Machine

/-- u with SCALE and OUT taken from s. -/
def takeScaleOut (u s : State) : State := { u with scale := s.scale, out := s.out }

/-- What an operation that keeps all but SCALE and OUT gives, with other words on the port. -/
theorem takeScaleOut_cmds {s t : State} (h : SameButScaleOut s t) (c : List Word16) :
    takeScaleOut { s with cmds := c } t = { t with cmds := c } := by
  obtain ⟨hbuf, herr, hmode, -⟩ := h
  rw [takeScaleOut, ← hbuf, ← herr, ← hmode]

theorem applyEvent_takeScaleOut (cfg : Params) (k : EvKind) (body : List Byte) (u s : State) :
    applyEvent cfg k body (takeScaleOut u s) = takeScaleOut u (applyEvent cfg k body s) := by
  cases k <;> rfl

theorem decodeLoop_takeScaleOut (cfg : Params) (E : List Byte) (fuel c : Nat) (u s : State) :
    decodeLoop cfg E fuel c (takeScaleOut u s) = takeScaleOut u (decodeLoop cfg E fuel c s) := by
  induction fuel generalizing c s with
  | zero => rfl
  | succ fuel ih =>
    by_cases hc : c < E.length
    · cases hk : evKind cfg (byteAt E c) with
      | none => simp only [decodeLoop, if_pos hc, hk]; rfl
      | some k =>
        by_cases hn : c + 1 + bodyLength k > E.length
        · simp only [decodeLoop, if_pos hc, hk, if_pos hn]; rfl
        · simp only [decodeLoop, if_pos hc, hk, if_neg hn, applyEvent_takeScaleOut, ih]
    · simp only [decodeLoop, if_neg hc]

theorem dispatch_takeScaleOut (cfg : Params) (p : List Byte) (u s : State) :
    dispatch cfg p (takeScaleOut u s) = takeScaleOut u (dispatch cfg p s) := by
  cases hk : cfg.msgKind (packetType p) with
  | event => simp only [dispatch, hk, decodeEvents, decodeLoop_takeScaleOut]
  | unknown => simp only [dispatch, hk]; rfl
  | sysAck | tareAck | info | status | identAck | timerNotice => simp only [dispatch, hk]

theorem dispatch_cmds (cfg : Params) (p : List Byte) (c : List Word16) (s : State) :
    dispatch cfg p { s with cmds := c } = { dispatch cfg p s with cmds := c } :=
  (dispatch_takeScaleOut cfg p { s with cmds := c } s).trans (takeScaleOut_cmds (dispatch_frame cfg p s) c)

theorem handlePacket_cmds (cfg : Params) (p : List Byte) (c : List Word16) (s : State) :
    handlePacket cfg p { s with cmds := c } = { handlePacket cfg p s with cmds := c } := by
  cases hv : validate p s.cksumMode with
  | true =>
    simp only [handlePacket, if_pos hv]
    exact dispatch_cmds cfg p c (emit (.pkt (cfg.msgKind (packetType p)) p) s)
  | false =>
    have hbad : ¬ validate p s.cksumMode = true := by simp [hv]
    simp only [handlePacket, if_neg hbad]
    rfl

theorem framingLoop_cmds (cfg : Params) (fuel : Nat) (c : List Word16) (s : State) :
    framingLoop cfg fuel { s with cmds := c } = { framingLoop cfg fuel s with cmds := c } := by
  induction fuel generalizing s with
  | zero => rfl
  | succ fuel ih =>
    obtain hq | ⟨h, p, e⟩ := quiescent_or_extract s.buf
    · rw [framingLoop_of_quiescent cfg _ hq, framingLoop_of_quiescent cfg (s := { s with cmds := c }) _ hq]
    · rw [framingLoop_of_extract cfg fuel e, framingLoop_of_extract cfg (s := { s with cmds := c }) fuel e, ← ih,
        ← handlePacket_cmds]
      rfl

theorem push_cmds (cfg : Params) (b : Byte) (c : List Word16) (s : State) :
    push cfg b { s with cmds := c } = { push cfg b s with cmds := c } := by
  rw [push_eq, push_eq]
  exact framingLoop_cmds cfg _ c { s with buf := appended cfg b s.buf }

theorem regValue_cmds (x : Reg) (c : List Word16) (s : State) : regValue x { s with cmds := c } = regValue x s := by
  cases x <;> rfl

theorem regValue_out (x : Reg) (o : List OutEvent) (s : State) : regValue x { s with out := o } = regValue x s := by
  cases x <;> rfl

/-- A command neither reads nor writes the words that wait behind it. -/
theorem perform_cmds (cfg : Params) (w : Word16) (c : List Word16) (s : State) :
    perform cfg w { s with cmds := c } = { perform cfg w s with cmds := c } := by
  obtain ⟨b, e⟩ | e | ⟨m, k, -, -, e⟩ | ⟨x, e⟩ | e := perform_cases cfg w <;> rw [e]
  · exact push_cmds cfg b c s
  · rfl
  · rfl
  · rw [readReg, regValue_cmds]
    rfl
  · rfl

/-- Settles O11: each step performs the first word, whose effect the words behind it do not change. -/
theorem runPerformsCommandsInOrder : Obligations.RunPerformsCommandsInOrder := by
  intro s ws rest
  induction ws generalizing s with
  | nil => rfl
  | cons w ws ih =>
    calc run (ws.length + 1) { s with cmds := w :: (ws ++ rest) }
      _ = run ws.length (perform Config.params w { s with cmds := ws ++ rest }) :=
        run_succ_of_next _ (step_of_cmds_cons rfl)
      _ = run ws.length { perform Config.params w s with cmds := ws ++ rest } := by rw [perform_cmds]
      _ = .next { ws.foldl (fun t w => perform Config.params w t) (perform Config.params w s) with cmds := rest } :=
        ih _

/-- The numbers 0 to 10 are assigned (10_state.md R28). -/
theorem exists_regNumber_eq {r : Byte} (hr : r.toNat ≤ 10) : ∃ x, regNumber x = r := by
  have hnumber : ∀ n : Fin 11, regNumber (allRegs.get n) = BitVec.ofNat 8 n := by decide
  have hself : BitVec.ofNat 8 r.toNat = r := (BitVec.ofNat_toNat 8 r).trans (BitVec.setWidth_eq r)
  exact ⟨_, (hnumber ⟨r.toNat, Nat.lt_succ_of_le hr⟩).trans hself⟩

theorem exec_rdreg_eq_readReg (x : Reg) (s : State) : exec (.rdreg (regNumber x)) s = .next (readReg x s) := by
  rw [exec_cases]
  simp only [(regOfByte_eq_some (regNumber x) x).mpr rfl]

/-- The reply is the same whatever OUT holds. -/
theorem readReg_out (x : Reg) (o : List OutEvent) (s : State) :
    readReg x { s with out := o } = { s with out := o ++ [.rsp (regNumber x) (regValue x s)] } := by
  rw [readReg, regValue_out]
  rfl

/-- Settles O17: the reply goes to OUT, which no register shows. -/
theorem readsHaveNoSideEffect : Obligations.ReadsHaveNoSideEffect := by
  intro s r hr
  obtain ⟨x, rfl⟩ := exists_regNumber_eq hr
  refine ⟨regValue x s, exec_rdreg_eq_readReg x s, ?_⟩
  rw [exec_rdreg_eq_readReg, readReg_out, List.append_assoc, List.singleton_append]

end Sys2Proof.Safety
end

section
/-! The decoder and the encoder are inverse to each other on well-formed instructions (30_encoding.md R82, R84), and what each
answer of the decoder says of the word's two fields as numbers. -/

namespace Sys2Proof.Safety

open Sys2Proof.Machine

theorem opField_cmdWord (op d : Byte) : opField (cmdWord op d) = op := BitVec.extractLsb'_append_eq_left

theorem dataField_cmdWord (op d : Byte) : dataField (cmdWord op d) = d := BitVec.extractLsb'_append_eq_right

theorem wellFormed_setmode (m : Byte) : (Instr.setmode m).wellFormed = true ↔ m ≤ 0x02 := decide_eq_true_iff

theorem wellFormed_rdreg (r : Byte) : (Instr.rdreg r).wellFormed = true ↔ r ≤ 0x0A := decide_eq_true_iff

/-- A well-formed instruction's data byte passes its opcode's test. -/
theorem decode_encode {i : Instr} (hi : i.wellFormed = true) : decode (encode i) = .legal i := by
  cases i with
  | push b => simp only [decode, encode, opField_cmdWord, dataField_cmdWord, if_true]
  | reset => rfl
  | setmode m =>
    simp only [decode, encode, opField_cmdWord, dataField_cmdWord, (wellFormed_setmode m).mp hi, if_true]
    rfl
  | rdreg r =>
    simp only [decode, encode, opField_cmdWord, dataField_cmdWord, (wellFormed_rdreg r).mp hi, if_true]
    rfl

/-- Settles O2: the decoder accepts the encoding of every well-formed instruction, and no other word. -/
theorem decodeEncodeAgree : Obligations.DecodeEncodeAgree := by
  intro w i
  constructor
  · intro hd
    exact (encode_of_decode_legal hd).symm
  · rintro ⟨hi, rfl⟩
    exact decode_encode hi

/-- A command word as a number: OP is the high byte and D the low byte (R80). -/
theorem cmdWord_toNat (op d : Byte) : (cmdWord op d).toNat = 256 * op.toNat + d.toNat := by
  rw [cmdWord, BitVec.toNat_append, Nat.shiftLeft_eq, Nat.mul_comm, ← Nat.two_pow_add_eq_or_of_lt d.isLt]

theorem cmdWord_eq_ofNat (op d : Byte) : cmdWord op d = BitVec.ofNat 16 (256 * op.toNat + d.toNat) := by
  rw [← cmdWord_toNat, BitVec.ofNat_toNat, BitVec.setWidth_eq]

/-- A word is put together from its quotient and its remainder by 256. -/
theorem cmdWord_eq_iff {op d : Byte} {w : Word16} :
    cmdWord op d = w ↔ w.toNat / 256 = op.toNat ∧ w.toNat % 256 = d.toNat := by
  have hd := d.isLt
  rw [← BitVec.toNat_inj, cmdWord_toNat]
  omega

theorem decode_eq_push {w : Word16} {b : Byte} :
    decode w = .legal (.push b) ↔ w.toNat / 256 = 1 ∧ w.toNat % 256 = b.toNat := by
  simp [decodeEncodeAgree w, Instr.wellFormed, encode, cmdWord_eq_iff, opPush]

theorem decode_eq_reset {w : Word16} : decode w = .legal .reset ↔ w.toNat / 256 = 2 ∧ w.toNat % 256 = 0 := by
  simp [decodeEncodeAgree w, Instr.wellFormed, encode, cmdWord_eq_iff, opReset]

theorem decode_eq_setmode {w : Word16} {m : Byte} :
    decode w = .legal (.setmode m) ↔ m.toNat ≤ 2 ∧ w.toNat / 256 = 3 ∧ w.toNat % 256 = m.toNat := by
  simp [decodeEncodeAgree w, Instr.wellFormed, encode, cmdWord_eq_iff, opSetmode, BitVec.le_def]

theorem decode_eq_rdreg {w : Word16} {r : Byte} :
    decode w = .legal (.rdreg r) ↔ r.toNat ≤ 10 ∧ w.toNat / 256 = 4 ∧ w.toNat % 256 = r.toNat := by
  simp [decodeEncodeAgree w, Instr.wellFormed, encode, cmdWord_eq_iff, opRdreg, BitVec.le_def]

/-- The remainder D is a byte. -/
theorem toNat_ofNat_mod_256 (w : Word16) : (BitVec.ofNat 8 (w.toNat % 256)).toNat = w.toNat % 256 :=
  Nat.mod_mod ..

theorem decode_of_op_push {w : Word16} (hop : w.toNat / 256 = 1) :
    decode w = .legal (.push (BitVec.ofNat 8 (w.toNat % 256))) :=
  decode_eq_push.mpr ⟨hop, (toNat_ofNat_mod_256 w).symm⟩

theorem decode_of_op_setmode {w : Word16} (hw : w.toNat / 256 = 3 ∧ w.toNat % 256 ≤ 2) :
    decode w = .legal (.setmode (BitVec.ofNat 8 (w.toNat % 256))) :=
  decode_eq_setmode.mpr ⟨(toNat_ofNat_mod_256 w).trans_le hw.2, hw.1, (toNat_ofNat_mod_256 w).symm⟩

theorem decode_of_op_rdreg {w : Word16} (hw : w.toNat / 256 = 4 ∧ w.toNat % 256 ≤ 10) :
    decode w = .legal (.rdreg (BitVec.ofNat 8 (w.toNat % 256))) :=
  decode_eq_rdreg.mpr ⟨(toNat_ofNat_mod_256 w).trans_le hw.2, hw.1, (toNat_ofNat_mod_256 w).symm⟩

/-- The decoder rejects a word exactly when it accepts it as none of the four commands (R83). -/
theorem exists_decode_illegal_iff {w : Word16} :
    (∃ why, decode w = .illegal why) ↔ ∀ i, decode w ≠ .legal i := by
  cases decode w <;> simp

/-- The illegal words are those of no row of R82. -/
theorem decode_illegal_iff {w : Word16} : (∃ why, decode w = .illegal why) ↔
    ¬ w.toNat / 256 = 1 ∧ ¬ (w.toNat / 256 = 2 ∧ w.toNat % 256 = 0) ∧
      ¬ (w.toNat / 256 = 3 ∧ w.toNat % 256 ≤ 2) ∧ ¬ (w.toNat / 256 = 4 ∧ w.toNat % 256 ≤ 10) := by
  rw [exists_decode_illegal_iff]
  constructor
  · intro hno
    exact ⟨fun hw => hno _ (decode_of_op_push hw), fun hw => hno _ (decode_eq_reset.mpr hw),
      fun hw => hno _ (decode_of_op_setmode hw), fun hw => hno _ (decode_of_op_rdreg hw)⟩
  · rintro ⟨hpush, hreset, hsetmode, hrdreg⟩ i hi
    cases i with
    | push b => exact hpush (decode_eq_push.mp hi).1
    | reset => exact hreset (decode_eq_reset.mp hi)
    | setmode m =>
      obtain ⟨hm, hop, hd⟩ := decode_eq_setmode.mp hi
      exact hsetmode ⟨hop, hd.trans_le hm⟩
    | rdreg r =>
      obtain ⟨hr, hop, hd⟩ := decode_eq_rdreg.mp hi
      exact hrdreg ⟨hop, hd.trans_le hr⟩

/-- Settles O1: one lemma for each branch of R84. -/
theorem decodeFollowsProcedure : Obligations.DecodeFollowsProcedure := fun _ =>
  ⟨decode_of_op_push, decode_eq_reset.mpr, decode_of_op_setmode, decode_of_op_rdreg, decode_illegal_iff.mpr⟩

/-- Settles O4: the legal words are encodings, and the decoder evaluates to R83's case on each illegal one. -/
theorem writtenWordsDecode : Obligations.WrittenWordsDecode :=
  ⟨decode_encode (i := .push 0xEF) rfl, decode_encode (i := .reset) rfl, decode_encode (i := .setmode 0x02) rfl,
    decode_encode (i := .rdreg 0x0A) rfl, rfl, rfl, rfl, rfl, rfl⟩

end Sys2Proof.Safety
end

section
/-! Command words performed: an illegal word only logs itself (45_commands.md R236), an instruction with an illegal operand does
what its word does, and a table word issued is the next one performed. -/

namespace Sys2Proof.Safety

open Sys2Proof.Machine

/-- Settles O3: the five cases of R83 are what the four rows of R82 leave. -/
theorem illegalWordsAreLogged : Obligations.IllegalWordsAreLogged := by
  intro w op d
  constructor
  · rw [decode_illegal_iff]
    omega
  · rintro ⟨why, hwhy⟩ cfg s
    exact ⟨by simp only [perform, performWith, hwhy, illegalCommand, log, emit], rfl⟩

theorem tableWord_toNat (w : Word16) : tableWord 16 w.toNat = some w := by
  simp only [tableWord, Nat.mod_eq_of_lt w.isLt, if_pos w.isLt, BitVec.ofNat_toNat, BitVec.setWidth_eq]

theorem withFetchWord_toNat (w : Word16) (s : State) :
    s.withFetchWord 16 w.toNat = { s with cmds := w :: s.cmds } := by
  simp only [State.withFetchWord, Nat.mod_eq_of_lt w.isLt, BitVec.ofNat_toNat, BitVec.setWidth_eq]

/-- Settles O5: the word stands at the head of the port, and a step takes it off again. -/
theorem issuedTableWordRunsNext : Obligations.IssuedTableWordRunsNext := by
  intro i s hi
  have hd := decode_encode hi
  constructor
  · simp only [decodeTableWord, tableWord_toNat, hd]
  · rw [withFetchWord_toNat, step_of_cmds_cons rfl, exec_eq_perform hd]

theorem modeOfByte_eq_none {m : Byte} (hm : 3 ≤ m.toNat) : modeOfByte m = none :=
  Option.eq_none_iff_forall_ne_some.mpr fun k hk =>
    absurd ((modeOfByte_isSome m).mp ⟨k, hk⟩) (Nat.not_le.mpr hm)

theorem regNumber_toNat_le (x : Reg) : (regNumber x).toNat ≤ 10 := by
  cases x <;> decide

theorem regOfByte_eq_none {r : Byte} (hr : 11 ≤ r.toNat) : regOfByte r = none := by
  refine Option.eq_none_iff_forall_ne_some.mpr fun x hx => ?_
  rw [(regOfByte_eq_some r x).mp hx] at hr
  exact absurd (regNumber_toNat_le x) (Nat.not_le.mpr hr)

/-- Settles O15: the operand names no mode or register, and the word logged is OP and D put together. -/
theorem illegalOperandsAreLogged : Obligations.IllegalOperandsAreLogged := by
  intro s d
  constructor
  · intro hd
    rw [exec_cases]
    simp only [modeOfByte_eq_none hd, encode, cmdWord_eq_ofNat]
    rfl
  · intro hd
    rw [exec_cases]
    simp only [regOfByte_eq_none hd, encode, cmdWord_eq_ofNat]
    rfl

end Sys2Proof.Safety
end

section
/-! The assembler syntax of 30_encoding.md R85: the operand list each kind of line takes, the words it stands for, and that PUSHN
is performed as its PUSHes (45_commands.md R232). -/

namespace Sys2Proof.Safety

open Sys2Proof.Machine

/-- A list of byte operands is read byte by byte, and one bad operand refuses the list. -/
theorem mapM_asmByte_eq_some {ops : List AsmOperand} {bs : List Byte} :
    ops.mapM asmByte = some bs ↔ ops = bs.map fun b => .num b.toNat := by
  induction ops generalizing bs with
  | nil => cases bs <;> simp
  | cons x xs ih =>
    have hread : (x :: xs).mapM asmByte = some bs ↔
        ∃ b, asmByte x = some b ∧ ∃ cs, xs.mapM asmByte = some cs ∧ b :: cs = bs := by
      simp [List.mapM_cons, Option.bind_eq_some_iff]
    rw [hread]
    simp only [asmByte_eq_some, ih]
    cases bs <;> simp

/-- A line with exactly one operand, read by f and put into the constructor c. -/
theorem asmOne_map_eq_some {α : Type} {f : AsmOperand → Option α} {c : α → AsmLine} {ops : List AsmOperand}
    {l : AsmLine} : (asmOne f ops).map c = some l ↔ ∃ a, (∃ x, ops = [x] ∧ f x = some a) ∧ l = c a := by
  simp only [Option.map_eq_some_iff, asmOne_eq_some, eq_comm (a := l)]

/-- Settles O6, one mnemonic at a time: the six differ, so each has its own operand form and no other. -/
theorem assemblerReadsLines : Obligations.AssemblerReadsLines := by
  intro mnemonic ops l
  dsimp only [readLine]
  generalize mnemonic.map Char.toUpper = mn
  split_ifs with hpush hreset hnil hsetmode hrdreg hword hpushn
  · subst hpush
    rw [asmOne_map_eq_some]
    simp [asmByte_eq_some]
  · subst hreset
    simp [hnil, eq_comm (a := l)]
  · subst hreset
    simp [hnil]
  · subst hsetmode
    rw [asmOne_map_eq_some]
    simp [asmMode_eq_some, and_or_left, exists_or]
  · subst hrdreg
    rw [asmOne_map_eq_some]
    simp [asmReg_eq_some, and_or_left, exists_or]
  · subst hword
    rw [asmOne_map_eq_some]
    simp [asmWord_eq_some]
  · subst hpushn
    simp [mapM_asmByte_eq_some, eq_comm (a := l)]
  · simp only [hpush, hreset, hsetmode, hrdreg, hword, hpushn, false_and, or_self]

theorem perform_encode_push (cfg : Params) (b : Byte) (s : State) : perform cfg (encode (.push b)) s = push cfg b s := by
  simp only [perform, performWith, decode_encode (i := .push b) rfl, push]

/-- Settles O12: a run performs the words in order, and each is its byte's PUSH. -/
theorem pushnIsItsPushes : Obligations.PushnIsItsPushes := by
  intro s bs rest
  have hrun := runPerformsCommandsInOrder s (assembleLine (.pushn bs)) rest
  simpa only [assembleLine, pushN, List.map_map, List.length_map, List.foldl_map, Function.comp_apply,
    perform_encode_push, pushAll] using hrun

/-- Settles O7: PUSH by its fields as a number, the lines of finitely many operands by evaluation, PUSHN by its recursion. -/
theorem assemblerLinesEncode : Obligations.AssemblerLinesEncode :=
  ⟨fun b => congrArg (fun w => [w]) (cmdWord_eq_ofNat opPush b), rfl, by decide, by decide, fun _ => rfl, rfl, fun _ _ => rfl⟩

end Sys2Proof.Safety
end

section
/-! The header scanner from any start index (40_header_scanner.md R120 to R122): scanning from an index is scanning the bytes from
there on, so its answers are those of a scan from the front. -/

namespace Sys2Proof.Safety

open Sys2Proof.Machine

theorem pairAt_drop (m : List Byte) (k i : Nat) : PairAt (m.drop k) i ↔ PairAt m (k + i) := by
  simp only [PairAt, List.getElem?_drop, Nat.add_assoc]

theorem headerScan_eq_map_drop (m : List Byte) (start : Nat) :
    headerScan m start = (headerScan (m.drop start) 0).map (· + start) := by
  rw [headerScan, scanFrom_eq_map, headerScan_zero]

/-- The scan answers the least index at or after its start with a marker pair. -/
theorem headerScan_eq_some {m : List Byte} {start i : Nat} :
    headerScan m start = some i ↔ start ≤ i ∧ PairAt m i ∧ ∀ j, start ≤ j → j < i → ¬ PairAt m j := by
  rw [headerScan_eq_map_drop]
  simp only [Option.map_eq_some_iff, headerScan_zero_eq_some, pairAt_drop]
  constructor
  · rintro ⟨k, ⟨hpair, hleast⟩, rfl⟩
    refine ⟨Nat.le_add_left .., Nat.add_comm start k ▸ hpair, fun j hj hjk => ?_⟩
    have hno := hleast (j - start) (by omega)
    rwa [Nat.add_sub_cancel' hj] at hno
  · rintro ⟨hi, hpair, hleast⟩
    refine ⟨i - start, ⟨?_, fun j hj => hleast _ (Nat.le_add_right ..) (by omega)⟩, Nat.sub_add_cancel hi⟩
    rwa [Nat.add_sub_cancel' hi]

/-- NOT_FOUND: no marker pair stands at or after the start. -/
theorem headerScan_eq_none {m : List Byte} {start : Nat} :
    headerScan m start = none ↔ ∀ i, start ≤ i → ¬ PairAt m i := by
  rw [headerScan_eq_map_drop, Option.map_eq_none_iff, headerScan_zero_eq_none]
  simp only [pairAt_drop]
  constructor
  · intro hno i hi
    have hno' := hno (i - start)
    rwa [Nat.add_sub_cancel' hi] at hno'
  · exact fun hno i => hno _ (Nat.le_add_right ..)

/-- Settles O27: what is said of a scan from the front holds from any start. -/
theorem headerScanFindsLeastPair : Obligations.HeaderScanFindsLeastPair :=
  fun _ _ => ⟨fun _ => headerScan_eq_some, headerScan_eq_none⟩

/-- A pair that a further byte completes ends in that byte. -/
theorem not_pairAt_append_singleton {m : List Byte} {b : Byte} (hm : ∀ i, ¬ PairAt m i) (hb : b ≠ 0xDD) (i : Nat) :
    ¬ PairAt (m ++ [b]) i := by
  intro hpair
  obtain ⟨hlt, hM2⟩ := List.getElem?_eq_some_iff.mp hpair.2
  rw [List.length_append, List.length_singleton] at hlt
  obtain hin | hend := Nat.lt_or_eq_of_le (Nat.le_of_lt_succ hlt)
  · exact hm i ((pairAt_append_left hin).mp hpair)
  · simp only [hend, List.getElem_concat_length] at hM2
    exact hb hM2

/-- Settles O28: M1 is not M2, so a trailing M1 completes no pair; and M2 after it completes the first one. -/
theorem trailingMarkerIsNotHeader : Obligations.TrailingMarkerIsNotHeader := by
  intro m hm
  have hnone : ∀ i, ¬ PairAt (m ++ [0xEF]) i :=
    not_pairAt_append_singleton (headerScan_zero_eq_none.mp hm) (by decide)
  have hscan : headerScan (m ++ [0xEF]) 0 = none := headerScan_zero_eq_none.mpr hnone
  have hpair : PairAt (m ++ [0xEF, 0xDD]) m.length := pairAt_append_right (i := 0) m ⟨rfl, rfl⟩
  refine ⟨hscan, (frameStep_eq_idle _).mpr hscan, headerScan_zero_eq_some.mpr ⟨hpair, fun i hi => ?_⟩⟩
  have hinside : i + 1 < (m ++ [0xEF]).length := by
    rw [List.length_append, List.length_singleton]
    omega
  rw [List.append_cons m 0xEF [0xDD], pairAt_append_left hinside]
  exact hnone i

/-- Where no pair stands, the scan goes on at the next index. -/
theorem headerScan_succ_of_not_pairAt {m : List Byte} {i : Nat} (hi : ¬ PairAt m i) :
    headerScan m i = headerScan m (i + 1) := by
  have hskip (k : Nat) (hk : PairAt m k) : i ≤ k ↔ i + 1 ≤ k :=
    ⟨fun hle => Nat.lt_of_le_of_ne hle fun hik => hi (hik ▸ hk), Nat.le_of_succ_le⟩
  ext k
  rw [headerScan_eq_some, headerScan_eq_some]
  constructor
  · rintro ⟨hle, hk, hleast⟩
    exact ⟨(hskip k hk).mp hle, hk, fun j hj => hleast j (Nat.le_of_succ_le hj)⟩
  · rintro ⟨hle, hk, hleast⟩
    exact ⟨(hskip k hk).mpr hle, hk, fun j hj hjk hpair => hleast j ((hskip j hpair).mp hj) hjk hpair⟩

/-- Settles O29: without M2 right after it, an M1 starts no pair. -/
theorem isolatedMarkerIsSkipped : Obligations.IsolatedMarkerIsSkipped := by
  intro m i _ hnext
  have hno : ¬ PairAt m i := fun hpair => hnext hpair.2
  exact ⟨fun start hscan => hno (headerScan_eq_some.mp hscan).2.1, headerScan_succ_of_not_pairAt hno⟩

end Sys2Proof.Safety
end

section
/-! Noise and then a packet, pushed into an empty buffer (42_frame_assembler.md R150 to R160): up to the packet's last byte they
only fill BUF, what overflow drops of them is noise (R157), and the last byte completes exactly that packet. -/

namespace Sys2Proof.Safety

open Sys2Proof.Machine

/-- The first marker pair stays the first one whatever follows. -/
theorem headerScan_append {m : List Byte} {h : Nat} (hscan : headerScan m 0 = some h) (l : List Byte) :
    headerScan (m ++ l) 0 = some h := by
  obtain ⟨hpair, hleast⟩ := headerScan_zero_eq_some.mp hscan
  obtain ⟨hlt, -⟩ := List.getElem?_eq_some_iff.mp hpair.2
  exact headerScan_zero_eq_some.mpr
    ⟨hpair.append l, fun i hi => mt (pairAt_append_left (by omega)).mp (hleast i hi)⟩

/-- The first marker pair stays the first one when noise before it is dropped. -/
theorem headerScan_drop {m : List Byte} {h k : Nat} (hscan : headerScan m 0 = some h) (hk : k ≤ h) :
    headerScan (m.drop k) 0 = some (h - k) := by
  obtain ⟨hpair, hleast⟩ := headerScan_zero_eq_some.mp hscan
  refine headerScan_zero_eq_some.mpr ⟨(pairAt_drop m k _).mpr ?_, fun i hi => mt (pairAt_drop m k i).mp ?_⟩
  · rwa [Nat.add_sub_cancel' hk]
  · exact hleast _ (by omega)

/-- A packet that is complete stays complete whatever follows. -/
theorem quiescent_of_append {m l : List Byte} (hq : quiescent (m ++ l) = true) : quiescent m = true := by
  rw [quiescent_iff] at hq ⊢
  intro h n hscan hn
  obtain ⟨hlt, -⟩ := List.getElem?_eq_some_iff.mp hn
  by_contra hlen
  have hshort := hq h n (headerScan_append hscan l) (by rwa [List.getElem?_append_left hlt])
  rw [List.length_append] at hshort
  omega

/-- Dropping from the front of a quiescent buffer keeps it quiescent while a packet's greatest length is left. -/
theorem quiescent_drop {m : Memory} (hq : quiescent m = true) {k : Nat} (hk : k + 259 ≤ m.length) :
    quiescent (m.drop k) = true := by
  induction k with
  | zero => exact hq
  | succ k ih =>
    rw [← List.drop_drop]
    exact quiescent_drop_one (ih (by omega)) (by rw [List.length_drop]; omega)

/-- What BUF keeps of a quiescent sequence, its last BUF_CAP bytes, is quiescent. -/
theorem quiescent_lasts (cfg : Params) {bs : List Byte} (hq : quiescent bs = true) :
    quiescent (bs.drop (bs.length - cfg.bufCap)) = true := by
  have hmin := cfg.bufCap_min
  obtain hfits | hover := Nat.le_total bs.length cfg.bufCap
  · rwa [Nat.sub_eq_zero_of_le hfits]
  · exact quiescent_drop hq (by omega)

/-- From an empty buffer, bytes that complete no packet only fill BUF, which keeps the last BUF_CAP of them. -/
theorem pushAll_of_quiescent (cfg : Params) {bs : List Byte} (s : State) (hbs : quiescent bs = true) :
    pushAll cfg bs { s with buf := [] } = { s with buf := bs.drop (bs.length - cfg.bufCap) } := by
  induction bs using List.reverseRecOn with
  | nil => rw [List.drop_nil]; rfl
  | append_singleton bs b ih =>
    have hquiet : quiescent (appended cfg b (bs.drop (bs.length - cfg.bufCap))) = true := by
      rw [appended_lasts]
      exact quiescent_lasts cfg hbs
    rw [pushAll_concat, ih (quiescent_of_append hbs), push_of_quiescent cfg hquiet, appended_lasts]

theorem pushAll_inv (cfg : Params) (bs : List Byte) {s : State} (hs : Inv cfg s) : Inv cfg (pushAll cfg bs s) := by
  induction bs generalizing s with
  | nil => exact hs
  | cons b bs ih => exact ih (push_inv cfg b hs)

/-- EXTRACT of R150: the first pair's packet is there in full. -/
theorem frameStep_of_complete {m : Memory} {h : Nat} {n : Byte} (hscan : headerScan m 0 = some h)
    (hn : m[h + 3]? = some n) (hlen : h + (n.toNat + 5) ≤ m.length) :
    frameStep m = .extract h ((m.drop h).take (n.toNat + 5)) := by
  rw [← slice_add]
  simp only [frameStep, hscan, memRead, hn, if_neg (Nat.not_lt.mpr hlen)]

/-- A packet whose own markers are the first pair is extracted, with the noise before it. -/
theorem frameStep_noise_append {noise p : List Byte} (hp : Framed p)
    (hscan : headerScan (noise ++ p) 0 = some noise.length) :
    frameStep (noise ++ p) = .extract noise.length p := by
  obtain ⟨-, -, n, hn, hlen⟩ := hp
  have hn' : (noise ++ p)[noise.length + 3]? = some n := by
    rwa [List.getElem?_append_right (Nat.le_add_right ..), Nat.add_sub_cancel_left]
  rw [frameStep_of_complete hscan hn' (by rw [List.length_append, hlen]), List.drop_left, ← hlen, List.take_length]

/-- Up to its last byte the packet is incomplete. -/
theorem quiescent_noise_append {noise q : List Byte} {b : Byte} (hp : Framed (q ++ [b]))
    (hscan : headerScan (noise ++ (q ++ [b])) 0 = some noise.length) : quiescent (noise ++ q) = true := by
  obtain ⟨-, -, n, hn, hlen⟩ := hp
  rw [quiescent_iff]
  intro h n' hscan' hn'
  have hwhole := headerScan_append hscan' [b]
  rw [List.append_assoc, hscan] at hwhole
  obtain rfl : noise.length = h := Option.some.inj hwhole
  rw [List.getElem?_append_right (Nat.le_add_right ..), Nat.add_sub_cancel_left] at hn'
  obtain ⟨h3, -⟩ := List.getElem?_eq_some_iff.mp hn'
  rw [List.getElem?_append_left h3, hn'] at hn
  obtain rfl : n' = n := Option.some.inj hn
  rw [List.length_append, List.length_singleton] at hlen
  rw [List.length_append]
  omega

/-- Overflow takes noise only: the packet, of at most 260 bytes, stays in BUF whole. -/
theorem frameStep_lasts_noise_append (cfg : Params) {noise p : List Byte} (hp : Framed p)
    (hscan : headerScan (noise ++ p) 0 = some noise.length) :
    ∃ h, frameStep ((noise ++ p).drop ((noise ++ p).length - cfg.bufCap)) = .extract h p := by
  have hcap := cfg.bufCap_min
  have hp260 := hp.length_bounds.2
  have hdrop : (noise ++ p).length - cfg.bufCap ≤ noise.length := by
    rw [List.length_append]
    omega
  generalize (noise ++ p).length - cfg.bufCap = k at hdrop ⊢
  have hscan' := headerScan_drop hscan hdrop
  rw [List.drop_append_of_le_length hdrop, ← List.length_drop] at hscan'
  exact ⟨_, by rw [List.drop_append_of_le_length hdrop, frameStep_noise_append hp hscan']⟩

/-- From an empty buffer, noise of any length and then a packet: exactly that packet is handled. -/
theorem pushAll_noise_append (cfg : Params) {s : State} {noise p : List Byte} (hs : s.buf = []) (hp : Framed p)
    (hscan : headerScan (noise ++ p) 0 = some noise.length) :
    pushAll cfg (noise ++ p) s = handlePacket cfg p s := by
  have hempty : { s with buf := [] } = s := by rw [← hs]
  obtain rfl | ⟨q, b, rfl⟩ := p.eq_nil_or_concat'
  · exact absurd hp.length_bounds.1 (by decide)
  · have hfill := pushAll_of_quiescent cfg s (quiescent_noise_append hp hscan)
    rw [hempty] at hfill
    obtain ⟨h, e⟩ := frameStep_lasts_noise_append cfg hp hscan
    rw [← List.append_assoc, ← appended_lasts] at e
    have hinv : Inv cfg (pushAll cfg (noise ++ q) s) := pushAll_inv cfg _ (inv_of_buf_nil cfg hs)
    rw [hfill] at hinv
    rw [← List.append_assoc, pushAll_concat, hfill, push_eq_handlePacket hinv e, hempty]

end Sys2Proof.Safety
end

section
/-! The packets that handling one packet reports (42_frame_assembler.md R152): the packet itself when it is valid, and none by
dispatching it. -/

namespace Sys2Proof.Safety

open Sys2Proof.Machine

/-- Decoding a region reports no packet. -/
theorem decodeLoop_packetsOf (cfg : Params) (E : List Byte) (fuel c : Nat) (s : State) :
    ∃ es, (decodeLoop cfg E fuel c s).out = s.out ++ es ∧ packetsOf es = [] := by
  induction fuel generalizing c s with
  | zero => exact ⟨[], (List.append_nil _).symm, rfl⟩
  | succ fuel ih =>
    rw [decodeLoop]
    split
    · dsimp only
      split
      · exact ⟨[_], log_out .., rfl⟩
      · next k _ =>
        split
        · exact ⟨[_], log_out .., rfl⟩
        · obtain ⟨-, m, hm⟩ := applyEvent_frame cfg k (slice (c + 1) (c + 1 + bodyLength k) E) s
          obtain ⟨es, hes, hnone⟩ := ih (c + 1 + bodyLength k) (applyEvent cfg k (slice (c + 1) (c + 1 + bodyLength k) E) s)
          exact ⟨.meas m :: es, by rw [hes, hm, List.append_assoc, List.singleton_append], hnone⟩
    · exact ⟨[], (List.append_nil _).symm, rfl⟩

/-- Dispatching a packet reports no further packet. -/
theorem dispatch_packetsOf (cfg : Params) (p : List Byte) (s : State) :
    ∃ es, (dispatch cfg p s).out = s.out ++ es ∧ packetsOf es = [] := by
  unfold dispatch
  dsimp only
  split
  · exact decodeLoop_packetsOf ..
  · exact ⟨[_], log_out .., rfl⟩
  all_goals exact ⟨[], (List.append_nil _).symm, rfl⟩

/-- A valid packet is reported once, and no other packet with it. -/
theorem handlePacket_packetsOf (cfg : Params) {p : List Byte} {s : State} (hv : validate p s.cksumMode = true) :
    ∃ es, (handlePacket cfg p s).out = s.out ++ es ∧ packetsOf es = [p] := by
  obtain ⟨es, hes, hnone⟩ := dispatch_packetsOf cfg p (emit (.pkt (cfg.msgKind (packetType p)) p) s)
  refine ⟨.pkt (cfg.msgKind (packetType p)) p :: es, ?_, by rw [packetsOf, hnone]⟩
  rw [handlePacket, if_pos hv, hes, emit_out, List.append_assoc, List.singleton_append]

/-- The example of R122: in M1 M1 M2 the pair stands at index 1. -/
theorem headerScan_isolated_marker_cons {p : List Byte} (hp : Framed p) : headerScan (0xEF :: p) 0 = some 1 := by
  obtain ⟨hM1, hM2, -⟩ := hp
  refine headerScan_zero_eq_some.mpr ⟨⟨hM1, hM2⟩, fun i hi => ?_⟩
  obtain rfl : i = 0 := Nat.lt_one_iff.mp hi
  rintro ⟨-, hsecond⟩
  rw [Nat.zero_add, List.getElem?_cons_succ, hM1] at hsecond
  exact absurd hsecond (by decide)

/-- Settles O45: an isolated M1 is one byte of noise. -/
theorem noiseThenPacketFramesPacket : Obligations.NoiseThenPacketFramesPacket := by
  intro cfg s p hs hp
  have hempty : (handlePacket cfg p s).buf = [] := (handlePacket_frame cfg p s).1.trans hs
  refine ⟨fun noise hscan => ⟨pushAll_noise_append cfg hs hp hscan, hempty⟩, fun hv => ?_⟩
  have hhandled : pushAll cfg (0xEF :: p) s = handlePacket cfg p s :=
    pushAll_noise_append cfg (noise := [0xEF]) hs hp (headerScan_isolated_marker_cons hp)
  rw [hhandled]
  exact handlePacket_packetsOf cfg hv

end Sys2Proof.Safety
end

section
/-! Sums of the bytes at selected positions (00_scope.md R10): the even, the odd and the whole sum of a checksum region are each
one. How a change or a swap of bytes moves such a sum (41_checksum.md R131 to R133, R136). -/

namespace Sys2Proof.Machine

/-- The sum of the bytes of P whose positions satisfy sel. -/
def sumWhere (sel : Nat → Prop) [DecidablePred sel] (P : List Byte) : Nat :=
  ∑ i ∈ Finset.range P.length, if sel i then (P.getD i 0).toNat else 0

theorem sumWhere_cons (sel : Nat → Prop) [DecidablePred sel] (x : Byte) (P : List Byte) :
    sumWhere sel (x :: P) = (if sel 0 then x.toNat else 0) + sumWhere (fun i => sel (i + 1)) P :=
  (Finset.sum_range_succ' _ P.length).trans (Nat.add_comm ..)

theorem sumWhere_congr {sel sel' : Nat → Prop} [DecidablePred sel] [DecidablePred sel'] (P : List Byte)
    (h : ∀ i, sel i ↔ sel' i) : sumWhere sel P = sumWhere sel' P := by
  simp only [sumWhere, h]

theorem sumBytes_eq_sumWhere (P : List Byte) : sumBytes P = sumWhere (fun _ => True) P := by
  induction P with
  | nil => rfl
  | cons x P ih =>
    rw [sumWhere_cons, if_pos trivial, ← ih]
    rfl

/-- Behind its first byte a sequence's even positions are the odd positions of the rest, and the other way round. -/
theorem evens_odds_cons (x : Byte) (P : List Byte) : evens (x :: P) = x :: odds P ∧ odds (x :: P) = evens P := by
  induction P generalizing x with
  | nil => exact ⟨rfl, rfl⟩
  | cons y P ih => exact ⟨congrArg (x :: ·) (ih y).2.symm, (ih y).1.symm⟩

theorem sumBytes_evens_odds (P : List Byte) :
    sumBytes (evens P) = sumWhere (· % 2 = 0) P ∧ sumBytes (odds P) = sumWhere (· % 2 = 1) P := by
  induction P with
  | nil => exact ⟨rfl, rfl⟩
  | cons x P ih =>
    obtain ⟨heven, hodd⟩ := ih
    obtain ⟨hevens, hodds⟩ := evens_odds_cons x P
    constructor
    · rw [hevens, sumWhere_cons, if_pos rfl, sumWhere_congr P (sel' := (· % 2 = 1)) (by omega), ← hodd]
      rfl
    · rw [hodds, sumWhere_cons, if_neg (by decide), sumWhere_congr P (sel' := (· % 2 = 0)) (by omega), ← heven,
        Nat.zero_add]

/-- Replacing a byte takes the old one out of the sum and puts the new one in, where its position is selected. -/
theorem sumWhere_set (sel : Nat → Prop) [DecidablePred sel] {P : List Byte} {i : Nat} (hi : i < P.length) (b : Byte) :
    sumWhere sel (P.set i b) + (if sel i then (P.getD i 0).toNat else 0) =
      sumWhere sel P + (if sel i then b.toNat else 0) := by
  induction P generalizing sel i with
  | nil => exact absurd hi (Nat.not_lt_zero i)
  | cons x P ih =>
    cases i with
    | zero =>
      rw [List.set_cons_zero, sumWhere_cons, sumWhere_cons, List.getD_cons_zero]
      omega
    | succ i =>
      have hrest := ih (fun i => sel (i + 1)) (Nat.lt_of_succ_lt_succ hi)
      rw [List.set_cons_succ, sumWhere_cons, sumWhere_cons, List.getD_cons_succ]
      omega

/-- One byte's change at a selected position is less than 256, so it changes the sum mod 256 (R136). -/
theorem sumWhere_set_mod_ne (sel : Nat → Prop) [DecidablePred sel] {P : List Byte} {i : Nat} {b : Byte}
    (hi : i < P.length) (hsel : sel i) (hb : b ≠ P.getD i 0) :
    sumWhere sel (P.set i b) % 256 ≠ sumWhere sel P % 256 := by
  have hset := sumWhere_set sel hi b
  rw [if_pos hsel, if_pos hsel] at hset
  have hne := BitVec.toNat_ne.mp hb
  have hnew := b.isLt
  have hold := (P.getD i 0).isLt
  omega

/-- A swap of two bytes at positions both selected or both not keeps the sum. -/
theorem sumWhere_swap (sel : Nat → Prop) [DecidablePred sel] {P : List Byte} {i j : Nat} (hi : i < P.length)
    (hj : j < P.length) (hsel : sel i ↔ sel j) :
    sumWhere sel ((P.set i (P.getD j 0)).set j (P.getD i 0)) = sumWhere sel P := by
  have hfirst := sumWhere_set sel hi (P.getD j 0)
  have hsecond := sumWhere_set sel (P := P.set i (P.getD j 0)) (List.length_set ▸ hj) (P.getD i 0)
  have hread : (P.set i (P.getD j 0)).getD j 0 = P.getD j 0 := by
    by_cases hij : i = j
    · simp [hij, hj]
    · simp [List.getElem?_set_ne hij]
  rw [hread] at hsecond
  simp only [hsel] at hfirst
  omega

/-- The sum does not depend on the order of the bytes. -/
theorem sumBytes_perm {P Q : List Byte} (h : P.Perm Q) : sumBytes P = sumBytes Q := (h.map BitVec.toNat).sum_eq

end Sys2Proof.Machine
end

section
/-! The validator through the packet's three fields (41_checksum.md R130 to R136): what it computes from the checksum region and
the tail, and how the fields move when a byte of the packet changes. -/

namespace Sys2Proof.Machine

/-- A variant's check of a checksum region against the two tail bytes, for a packet that has both (R131 to R133). -/
def tailAccepts (mode : CksumMode) (P : List Byte) (c0 c1 : Byte) : Bool :=
  match mode with
  | .split => splitOK P c0 c1
  | .sumTails => sumTailsOK P c0 c1
  | .sumLast => sumLastOK P c1

theorem validate_eq_tailAccepts {p : List Byte} (hp : 5 ≤ p.length) (mode : CksumMode) :
    validate p mode = tailAccepts mode (checksumRegion p) (checksumByte0 p) (checksumByte1 p) := by
  rw [validate_eq p hp]
  cases mode <;> rfl

theorem tailAccepts_split {P : List Byte} {c0 c1 : Byte} : tailAccepts .split P c0 c1 = true ↔
    sumWhere (· % 2 = 0) P % 256 = c0.toNat ∧ sumWhere (· % 2 = 1) P % 256 = c1.toNat := by
  obtain ⟨heven, hodd⟩ := sumBytes_evens_odds P
  simp only [tailAccepts, splitOK, Bool.and_eq_true, beq_iff_eq, heven, hodd]

theorem tailAccepts_sumTails {P : List Byte} {c0 c1 : Byte} :
    tailAccepts .sumTails P c0 c1 = true ↔ sumBytes P % 256 = (c0 + c1).toNat := by
  rw [BitVec.toNat_add]
  exact beq_iff_eq

theorem tailAccepts_sumLast {P : List Byte} {c0 c1 : Byte} :
    tailAccepts .sumLast P c0 c1 = true ↔ sumBytes P % 256 = c1.toNat := beq_iff_eq

/-- Each variant holds some sum that the position j goes into to a value the tail fixes. -/
theorem exists_sumWhere_of_tailAccepts (mode : CksumMode) (c0 c1 : Byte) (j : Nat) :
    ∃ (sel : Nat → Prop) (_ : DecidablePred sel) (v : Nat), sel j ∧
      ∀ P, tailAccepts mode P c0 c1 = true → sumWhere sel P % 256 = v := by
  cases mode with
  | split =>
    obtain heven | hodd := Nat.mod_two_eq_zero_or_one j
    · exact ⟨(· % 2 = 0), inferInstance, c0.toNat, heven, fun P hP => (tailAccepts_split.mp hP).1⟩
    · exact ⟨(· % 2 = 1), inferInstance, c1.toNat, hodd, fun P hP => (tailAccepts_split.mp hP).2⟩
  | sumTails =>
    exact ⟨fun _ => True, inferInstance, _, trivial,
      fun P hP => sumBytes_eq_sumWhere P ▸ tailAccepts_sumTails.mp hP⟩
  | sumLast =>
    exact ⟨fun _ => True, inferInstance, _, trivial,
      fun P hP => sumBytes_eq_sumWhere P ▸ tailAccepts_sumLast.mp hP⟩

/-- A change of one byte of the region is detected by every variant (R136). -/
theorem tailAccepts_set {mode : CksumMode} {P : List Byte} {c0 c1 b : Byte} {j : Nat} (hj : j < P.length)
    (hb : b ≠ P.getD j 0) (hP : tailAccepts mode P c0 c1 = true) : tailAccepts mode (P.set j b) c0 c1 = false := by
  obtain ⟨sel, _, v, hsel, hsum⟩ := exists_sumWhere_of_tailAccepts mode c0 c1 j
  refine Bool.eq_false_iff.mpr fun hP' => sumWhere_set_mod_ne sel hj hsel hb ?_
  rw [hsum P hP, hsum _ hP']

/-! The fields of a packet in which one byte is replaced. -/

theorem byteAt_set_self {p : List Byte} {i : Nat} (hi : i < p.length) (b : Byte) : byteAt (p.set i b) i = b := by
  simp [byteAt, hi]

theorem byteAt_set_ne (p : List Byte) {i j : Nat} (hij : i ≠ j) (b : Byte) :
    byteAt (p.set i b) j = byteAt p j := by
  simp [byteAt, List.getElem?_set_ne hij]

theorem checksumByte0_set_ne (p : List Byte) {i : Nat} (hi : i ≠ p.length - 2) (b : Byte) :
    checksumByte0 (p.set i b) = checksumByte0 p := by
  rw [checksumByte0, List.length_set, byteAt_set_ne p hi, checksumByte0]

theorem checksumByte1_set_ne (p : List Byte) {i : Nat} (hi : i ≠ p.length - 1) (b : Byte) :
    checksumByte1 (p.set i b) = checksumByte1 p := by
  rw [checksumByte1, List.length_set, byteAt_set_ne p hi, checksumByte1]

theorem checksumByte0_set_self {p : List Byte} {i : Nat} (hi : i + 2 = p.length) (b : Byte) :
    checksumByte0 (p.set i b) = b := by
  rw [checksumByte0, List.length_set, ← hi, Nat.add_sub_cancel, byteAt_set_self (by omega)]

theorem checksumByte1_set_self {p : List Byte} {i : Nat} (hi : i + 1 = p.length) (b : Byte) :
    checksumByte1 (p.set i b) = b := by
  rw [checksumByte1, List.length_set, ← hi, Nat.add_sub_cancel, byteAt_set_self (by omega)]

theorem checksumRegion_set_header (p : List Byte) {i : Nat} (hi : i < 3) (b : Byte) :
    checksumRegion (p.set i b) = checksumRegion p := by
  rw [checksumRegion_eq, checksumRegion_eq, List.length_set, slice, slice, List.take_set, List.drop_set_of_lt hi]

/-- From offset 3 on a byte is the region's byte 3 places before, or none of the region's. -/
theorem checksumRegion_set (p : List Byte) {i : Nat} (hi : 3 ≤ i) (b : Byte) :
    checksumRegion (p.set i b) = (checksumRegion p).set (i - 3) b := by
  rw [checksumRegion_eq, checksumRegion_eq, List.length_set, slice, slice, List.take_set, List.drop_set,
    if_neg (Nat.not_lt.mpr hi)]

theorem checksumRegion_set_tail {p : List Byte} {i : Nat} (hp : 5 ≤ p.length) (hi : p.length - 2 ≤ i) (b : Byte) :
    checksumRegion (p.set i b) = checksumRegion p := by
  rw [checksumRegion_set p (by omega), List.set_eq_of_length_le (by rw [checksumRegion_length]; omega)]

theorem checksumRegion_getD {p : List Byte} {i : Nat} (hi : i < p.length - 5) :
    (checksumRegion p).getD i 0 = p.getD (3 + i) 0 := by
  rw [checksumRegion_eq, slice, List.getD_eq_getElem?_getD, List.getD_eq_getElem?_getD, List.getElem?_drop,
    List.getElem?_take_of_lt (by omega)]

theorem sumWhere_checksumRegion (sel : Nat → Prop) [DecidablePred sel] (p : List Byte) :
    sumWhere sel (checksumRegion p) =
      ∑ i ∈ Finset.range (p.length - 5), if sel i then (p.getD (3 + i) 0).toNat else 0 := by
  rw [sumWhere, checksumRegion_length]
  refine Finset.sum_congr rfl fun i hi => ?_
  rw [checksumRegion_getD (Finset.mem_range.mp hi)]

/-! A packet written as its header, its checksum region and its tail (30_encoding.md R87). -/

/-- A packet given by its fields is validated by them; the header is none of them (R134). -/
theorem validate_layout {hd : List Byte} (hhd : hd.length = 3) (P : List Byte) (c0 c1 : Byte) (mode : CksumMode) :
    validate (hd ++ P ++ [c0, c1]) mode = tailAccepts mode P c0 c1 := by
  have hlen : (hd ++ P ++ [c0, c1]).length = 3 + P.length + 2 := by simp [hhd, Nat.add_assoc]
  have hregion : checksumRegion (hd ++ P ++ [c0, c1]) = P := by
    rw [checksumRegion_eq, hlen, slice, List.take_left' (by simp [hhd]), List.drop_left' hhd]
  have htail (i : Nat) : byteAt (hd ++ P ++ [c0, c1]) (3 + P.length + i) = byteAt [c0, c1] i := by
    rw [byteAt, byteAt, List.getD_append_right _ _ _ _ (by simp [hhd]), List.length_append, hhd, Nat.add_sub_cancel_left]
  have hc0 : checksumByte0 (hd ++ P ++ [c0, c1]) = c0 := by
    rw [checksumByte0, hlen]
    exact htail 0
  have hc1 : checksumByte1 (hd ++ P ++ [c0, c1]) = c1 := by
    rw [checksumByte1, hlen]
    exact htail 1
  rw [validate_eq_tailAccepts (by omega), hregion, hc0, hc1]

/-- Settles O30: each variant's sums over the region are sums over the packet's offsets from 3 on. -/
theorem validateComputesChecksums : Obligations.ValidateComputesChecksums := by
  intro p at_ n even odd all c0 c1
  refine ⟨fun hshort mode => if_pos hshort, fun hp => ?_⟩
  have hall : sumBytes (checksumRegion p) = all := by
    rw [sumBytes_eq_sumWhere, sumWhere_checksumRegion]
    rfl
  have heven : sumWhere (· % 2 = 0) (checksumRegion p) = even := sumWhere_checksumRegion _ p
  have hodd : sumWhere (· % 2 = 1) (checksumRegion p) = odd := sumWhere_checksumRegion _ p
  simp only [validate_eq_tailAccepts hp]
  rw [tailAccepts_split, tailAccepts_sumTails, tailAccepts_sumLast, heven, hodd, hall,
    BitVec.toNat_add]
  exact ⟨Iff.rfl, Iff.rfl, Iff.rfl⟩

/-- Settles O31: over an empty region every sum is 0. -/
theorem emptyPayloadChecksums : Obligations.EmptyPayloadChecksums := by
  intro a b t c0 c1
  have hempty (mode : CksumMode) : validate [a, b, t, c0, c1] mode = tailAccepts mode [] c0 c1 :=
    validate_layout (hd := [a, b, t]) rfl [] c0 c1 mode
  have hzero (c : Byte) : 0 = c.toNat ↔ c = 0 := by
    rw [eq_comm, ← BitVec.toNat_inj]
    rfl
  rw [hempty, hempty, hempty, tailAccepts_split, tailAccepts_sumTails, tailAccepts_sumLast]
  exact ⟨and_congr (hzero c0) (hzero c1), hzero (c0 + c1), hzero c1⟩

/-- Settles O32: a region byte goes into a sum that the tail fixes; under SPLIT the region fixes either tail byte. -/
theorem singleByteChangeDetected : Obligations.SingleByteChangeDetected := by
  intro p i b hp hb
  have hp' : 5 ≤ (p.set i b).length := by rwa [List.length_set]
  refine ⟨fun mode hi hi' hvalid => ?_, fun hi hi' hvalid => ?_⟩
  · rw [validate_eq_tailAccepts hp] at hvalid
    rw [validate_eq_tailAccepts hp', checksumRegion_set p hi, checksumByte0_set_ne p (by omega),
      checksumByte1_set_ne p (by omega)]
    refine tailAccepts_set (by rw [checksumRegion_length]; omega) ?_ hvalid
    rwa [checksumRegion_getD (by omega), Nat.add_sub_cancel' hi]
  · rw [validate_eq_tailAccepts hp, tailAccepts_split] at hvalid
    obtain ⟨heven, hodd⟩ := hvalid
    rw [Bool.eq_false_iff, validate_eq_tailAccepts hp', Ne, tailAccepts_split, checksumRegion_set_tail hp hi, heven, hodd,
      BitVec.toNat_inj, BitVec.toNat_inj]
    rintro ⟨hsame0, hsame1⟩
    obtain rfl | rfl : i = p.length - 2 ∨ i = p.length - 1 := by omega
    · rw [checksumByte0_set_self (by omega)] at hsame0
      exact hb hsame0.symm
    · rw [checksumByte1_set_self (by omega)] at hsame1
      exact hb hsame1.symm

/-- Settles O33: the header is in no field the validator reads, SUM_LAST reads no C0, and SUM_TAILS only the sum of the tail. -/
theorem undetectedByteChanges : Obligations.UndetectedByteChanges := by
  intro p b b' hp
  have hp' (i : Nat) (x : Byte) : 5 ≤ (p.set i x).length := by rwa [List.length_set]
  refine ⟨fun mode i hi => ?_, ?_, fun hsum => ?_⟩
  · rw [validate_eq_tailAccepts (hp' i b), validate_eq_tailAccepts hp, checksumRegion_set_header p hi,
      checksumByte0_set_ne p (by omega), checksumByte1_set_ne p (by omega)]
  · rw [validate_eq_tailAccepts (hp' _ b), validate_eq_tailAccepts hp, checksumRegion_set_tail hp le_rfl,
      checksumByte1_set_ne p (by omega)]
    rfl
  · have hc0 : checksumByte0 ((p.set (p.length - 2) b).set (p.length - 1) b') = b := by
      rw [checksumByte0_set_ne _ (by rw [List.length_set]; omega), checksumByte0_set_self (by omega)]
    have hc1 : checksumByte1 ((p.set (p.length - 2) b).set (p.length - 1) b') = b' :=
      checksumByte1_set_self (by rw [List.length_set]; omega) b'
    have hregion : checksumRegion ((p.set (p.length - 2) b).set (p.length - 1) b') = checksumRegion p := by
      rw [checksumRegion_set_tail (hp' _ b) (by rw [List.length_set]; omega), checksumRegion_set_tail hp le_rfl]
    rw [validate_eq_tailAccepts (by rwa [List.length_set, List.length_set]), validate_eq_tailAccepts hp, hregion, hc0, hc1,
      Bool.eq_iff_iff, tailAccepts_sumTails, tailAccepts_sumTails, hsum]
    rfl

/-- Settles O34: the single-sum variants read the region through its whole sum, and SPLIT through the sums of the even and of the
odd positions. -/
theorem undetectedPermutations : Obligations.UndetectedPermutations := by
  intro hd P c0 c1 hhd
  refine ⟨fun Q hperm => ?_, fun i j hi hj hparity => ?_⟩
  · have hsum := sumBytes_perm hperm
    simp only [validate_layout hhd]
    constructor
    · rw [Bool.eq_iff_iff, tailAccepts_sumTails, tailAccepts_sumTails, hsum]
    · rw [Bool.eq_iff_iff, tailAccepts_sumLast, tailAccepts_sumLast, hsum]
  · have hsum (r : Nat) := sumWhere_swap (· % 2 = r) hi hj (by rw [hparity])
    rw [validate_layout hhd, validate_layout hhd, Bool.eq_iff_iff, tailAccepts_split, tailAccepts_split, hsum, hsum]

end Sys2Proof.Machine
end

section
/-! The packet that closes a payload with its SPLIT sums (41_checksum.md R137). -/

namespace Sys2Proof.Safety

open Sys2Proof.Machine

/-- A payload led by its own length, when it is not empty, stands in a packet laid out by R87; behind an empty payload the length
byte is C0, which then is 0. -/
theorem framed_of_payload (t c1 : Byte) {P : List Byte} {c0 : Byte} (hempty : P = [] → c0 = 0)
    (hlead : P ≠ [] → (P.getD 0 0).toNat = P.length) : Framed ([0xEF, 0xDD, t] ++ P ++ [c0, c1]) := by
  refine ⟨rfl, rfl, ?_⟩
  cases P with
  | nil => exact ⟨0, by rw [hempty rfl]; rfl, rfl⟩
  | cons n P =>
    have hn : n.toNat = (n :: P).length := hlead (List.cons_ne_nil n P)
    refine ⟨n, rfl, ?_⟩
    simp [hn]

/-- A packet that stands alone in BUF is taken whole. -/
theorem frameStep_of_framed {p : List Byte} (hp : Framed p) : frameStep p = .extract 0 p := by
  obtain ⟨hM1, hM2, -⟩ := id hp
  exact frameStep_noise_append (noise := []) hp
    (headerScan_zero_eq_some.mpr ⟨⟨hM1, hM2⟩, fun i hi => absurd hi (Nat.not_lt_zero i)⟩)

/-- Settles O35: the tail holds the region's two sums, and the payload's first byte is the packet's length byte. -/
theorem splitRoundTrip : Obligations.SplitRoundTrip := by
  intro t P _ hlead even odd p
  constructor
  · rw [show validate p .split = _ from validate_layout (hd := [0xEF, 0xDD, t]) rfl P _ _ .split, tailAccepts_split,
      BitVec.toNat_ofNat, BitVec.toNat_ofNat]
    exact ⟨rfl, rfl⟩
  · exact frameStep_of_framed (framed_of_payload t _ (fun hP => by subst hP; rfl) hlead)

end Sys2Proof.Safety
end

section
/-! Bytes that emit nothing complete no packet, so CKSUM_MODE is not read for them: a mode change may come before or after them,
and the packet that a further byte completes is validated under the mode in force at that byte (41_checksum.md R138,
70_reset_and_hazards.md R295). -/

namespace Sys2Proof.Safety

open Sys2Proof.Machine

/-- Handling a packet always emits: its PKT event, or the log of its bad checksum. -/
theorem handlePacket_out_grows (cfg : Params) (p : List Byte) (s : State) :
    ∃ es, (handlePacket cfg p s).out = s.out ++ es ∧ es ≠ [] := by
  obtain ⟨hv, -⟩ | ⟨-, hbad⟩ := handlePacket_cases cfg p s
  · obtain ⟨es, hes, hpkt⟩ := handlePacket_packetsOf cfg hv
    refine ⟨es, hes, ?_⟩
    rintro rfl
    cases hpkt
  · exact ⟨[_], by rw [hbad]; exact log_out .., List.cons_ne_nil _ _⟩

/-- A PUSH that emits nothing leaves the framing loop nothing to take. -/
theorem quiescent_of_push_out {cfg : Params} {b : Byte} {s : State} (hout : (push cfg b s).out = s.out) :
    quiescent (appended cfg b s.buf) = true := by
  obtain hq | ⟨h, p, e⟩ := quiescent_or_extract (appended cfg b s.buf)
  · exact hq
  · obtain ⟨n, hn⟩ : ∃ n, (appended cfg b s.buf).length = n + 1 := ⟨_, List.length_append⟩
    rw [push_eq, runFraming, hn, framingLoop_of_extract cfg n e] at hout
    obtain ⟨es, hpacket, hne⟩ :=
      handlePacket_out_grows cfg p (bufDropFront (h + p.length) { s with buf := appended cfg b s.buf })
    obtain ⟨es', hloop⟩ := framingLoop_emits cfg n _
    rw [hloop.out, hpacket, bufDropFront_out, List.append_assoc, List.append_right_eq_self] at hout
    exact absurd (List.append_eq_nil_iff.mp hout).1 hne

theorem push_setMode_of_silent {cfg : Params} {b : Byte} {s : State} (k : CksumMode)
    (hout : (push cfg b s).out = s.out) : push cfg b (setMode k s) = setMode k (push cfg b s) := by
  have hq := quiescent_of_push_out hout
  rw [push_of_quiescent cfg hq, push_of_quiescent cfg (s := setMode k s) hq]
  rfl

/-- Bytes that emit nothing, at no prefix of them, commute with a mode change. -/
theorem pushAll_setMode_of_silent {cfg : Params} {bs : List Byte} {s : State} (k : CksumMode)
    (hout : ∀ n ≤ bs.length, (pushAll cfg (bs.take n) s).out = s.out) :
    pushAll cfg bs (setMode k s) = setMode k (pushAll cfg bs s) := by
  induction bs using List.reverseRecOn with
  | nil => rfl
  | append_singleton bs b ih =>
    have hprefix (n : Nat) (hn : n ≤ bs.length) : (pushAll cfg (bs.take n) s).out = s.out := by
      rw [← List.take_append_of_le_length (l₂ := [b]) hn]
      exact hout n (by rw [List.length_append]; omega)
    have hbefore := hprefix bs.length le_rfl
    have hafter := hout (bs ++ [b]).length le_rfl
    rw [List.take_length] at hbefore
    rw [List.take_length, pushAll_concat, ← hbefore] at hafter
    rw [pushAll_concat, pushAll_concat, ih hprefix, push_setMode_of_silent k hafter]

/-- Settles O49: the silent bytes leave the new mode in force, and the completing byte has its packet handled under it. -/
theorem modeChangeBeforeLastByteApplies : Obligations.ModeChangeBeforeLastByteApplies := by
  intro cfg s bs k hout
  have hcomm := pushAll_setMode_of_silent k hout
  refine ⟨hcomm, ?_⟩
  intro b h p hs e taken handled
  have hbefore : taken.out = s.out := by
    rw [← hout bs.length le_rfl, List.take_length]
  have hinv : Inv cfg (setMode k (pushAll cfg bs s)) := pushAll_inv cfg bs hs
  have harg : (packetType p).setWidth 16 = BitVec.ofNat 16 (p.getD 2 0).toNat := (BitVec.ofNat_toNat 16 _).symm
  have hhandled : handlePacket cfg p taken = handled := by
    obtain ⟨hv, hdone⟩ | ⟨hv, hdone⟩ := handlePacket_cases cfg p taken
    · rw [hdone, show handled = _ from if_pos hv, ← hbefore]
      rfl
    · rw [hdone, show handled = _ from if_neg (Bool.eq_false_iff.mp hv), ← hbefore, ← satInc_32, ← harg]
      rfl
  have hpush : push cfg b (setMode k (pushAll cfg bs s)) = handled := (push_eq_handlePacket hinv e).trans hhandled
  exact ⟨hpush, by rw [pushAll_concat, hcomm, hpush]⟩

end Sys2Proof.Safety
end

section
/-! PUSH of one byte in full (42_frame_assembler.md R150 to R158): what `frameStep` answers, what a byte that completes no packet
does, and how a completed packet that passes is dispatched (43_dispatcher.md R180 to R182). PUSH, like every other command,
completes (60_exceptions.md R260). -/

namespace Sys2Proof.Safety

open Sys2Proof.Machine

/-- WAIT of R150: the first pair's length byte, or a byte of its packet, is still to come. -/
theorem frameStep_eq_wait (m : Memory) : frameStep m = .wait ↔ ∃ h, headerScan m 0 = some h ∧
    (m.length < h + 4 ∨ ∃ n, m[h + 3]? = some n ∧ m.length < h + n.toNat + 5) := by
  cases hscan : headerScan m 0 with
  | none => simp [(frameStep_eq_idle m).mpr hscan]
  | some h =>
    cases hn : m[h + 3]? with
    | none =>
      have hshort : m.length < h + 4 := Nat.lt_succ_of_le (List.getElem?_eq_none_iff.mp hn)
      simp [frameStep, hscan, memRead, hn, hshort]
    | some n =>
      obtain ⟨hlt, -⟩ := List.getElem?_eq_some_iff.mp hn
      have hpresent : ¬ m.length < h + 4 := Nat.not_lt.mpr hlt
      by_cases hlen : m.length < h + (n.toNat + 5)
      · simp [frameStep, hscan, memRead, hn, hlen, Nat.add_assoc]
      · simp [frameStep, hscan, memRead, hn, hlen, hpresent, Nat.add_assoc]

theorem frameStep_eq_extract (m : Memory) (h : Nat) (p : List Byte) : frameStep m = .extract h p ↔
    (headerScan m 0 = some h ∧
      ∃ n, m[h + 3]? = some n ∧ h + n.toNat + 5 ≤ m.length ∧ p = (m.drop h).take (n.toNat + 5)) := by
  constructor
  · intro e
    obtain ⟨hscan, n, hn, hlen, rfl⟩ := frameStep_extract e
    exact ⟨hscan, n, hn, hlen, slice_add h (n.toNat + 5) m⟩
  · rintro ⟨hscan, n, hn, hlen, rfl⟩
    exact frameStep_of_complete hscan hn hlen

/-- Settles O36, one answer at a time. -/
theorem frameStepClassifiesBuffer : Obligations.FrameStepClassifiesBuffer :=
  fun m => ⟨frameStep_eq_idle m, frameStep_eq_wait m, frameStep_eq_extract m⟩

/-- Settles O10: an instruction is one state function, none of which touches the port, and so is a step. -/
theorem everyCommandCompletes : Obligations.EveryCommandCompletes := by
  refine ⟨fun i s => ⟨_, exec_cases i s, ?_⟩, fun s => ?_⟩
  · cases i with
    | push b => exact (push_frame Config.params b s).2
    | reset => rfl
    | setmode m => cases hm : modeOfByte m <;> simp only [hm] <;> rfl
    | rdreg r => cases hr : regOfByte r <;> simp only [hr] <;> rfl
  · cases hc : s.cmds with
    | nil => exact ⟨s, step_of_cmds_nil hc⟩
    | cons w rest => exact ⟨_, step_of_cmds_cons hc⟩

/-- Settles O41: the framing loop makes no pass. -/
theorem pushWithoutPacketRetainsBytes : Obligations.PushWithoutPacketRetainsBytes :=
  fun _ _ hq => congrArg Host.Outcome.next (push_of_quiescent Config.params hq)

/-- Settles O42: the quiescent buffer before the byte held no complete packet, so the one completed takes all of BUF. -/
theorem pushCompletesOnePacket : Obligations.PushCompletesOnePacket := fun _ _ _ p hs e =>
  ⟨extract_appended_ends hs e, congrArg Host.Outcome.next (push_eq_handlePacket hs e),
    (handlePacket_frame Config.params p _).1⟩

theorem eventRegion_eq_take_drop (p : List Byte) : eventRegion p = (p.drop 4).take (p.length - 6) := by
  rw [eventRegion_eq, slice, List.drop_take, Nat.sub_sub]

/-- Settles O44: handling a packet that passes is its PKT event and then the dispatch by its kind. -/
theorem pushReportsValidPacket : Obligations.PushReportsValidPacket := by
  intro cfg s b h p hs e hv k reported t
  have hreport : push cfg b s = dispatch cfg p reported :=
    (push_eq_handlePacket hs e).trans (if_pos hv)
  have hdispatch : dispatch cfg p reported = t := by
    have hkind : cfg.msgKind (packetType p) = k := rfl
    have harg : (packetType p).setWidth 16 = BitVec.ofNat 16 (p.getD 2 0).toNat := (BitVec.ofNat_toNat 16 _).symm
    clear_value k
    cases k with
    | event => simp only [dispatch, hkind, eventRegion_eq_take_drop]; rfl
    | unknown => simp only [dispatch, hkind, harg, log, emit, reported, t, List.append_assoc]; rfl
    | sysAck | tareAck | info | status | identAck | timerNotice => simp only [dispatch, hkind]; rfl
  have hpush : push cfg b s = t := hreport.trans hdispatch
  refine ⟨hpush, ?_⟩
  rintro rfl
  exact congrArg Host.Outcome.next hpush

end Sys2Proof.Safety
end

section
/-! The framing loop without its bound (42_frame_assembler.md R153), and framing in chunks (R159): a packet that is complete is
extracted just the same whatever bytes follow it. -/

namespace Sys2Proof.Safety

open Sys2Proof.Machine

/-- Passes beyond |BUF| change nothing: each pass that goes on removes at least 5 bytes. -/
theorem framingLoop_of_enough_fuel (cfg : Params) {fuel fuel' : Nat} {s : State} (hf : s.buf.length ≤ fuel)
    (hf' : s.buf.length ≤ fuel') : framingLoop cfg fuel s = framingLoop cfg fuel' s := by
  induction fuel generalizing fuel' s with
  | zero =>
    have hq : quiescent s.buf = true := by rw [List.eq_nil_of_length_eq_zero (Nat.le_zero.mp hf)]; rfl
    rw [framingLoop_of_quiescent cfg 0 hq, framingLoop_of_quiescent cfg fuel' hq]
  | succ fuel ih =>
    obtain hq | ⟨h, p, e⟩ := quiescent_or_extract s.buf
    · rw [framingLoop_of_quiescent cfg _ hq, framingLoop_of_quiescent cfg _ hq]
    · have hlen := frameStep_extract_length e
      obtain ⟨k, rfl⟩ : ∃ k, fuel' = k + 1 := ⟨fuel' - 1, by omega⟩
      rw [framingLoop_of_extract cfg fuel e, framingLoop_of_extract cfg k e]
      apply ih <;> rw [handlePacket_bufDropFront_buf, List.length_drop] <;> omega

theorem runFraming_of_quiescent (cfg : Params) {s : State} (hq : quiescent s.buf = true) : runFraming cfg s = s :=
  framingLoop_of_quiescent cfg _ hq

theorem runFraming_of_extract (cfg : Params) {s : State} {h : Nat} {p : List Byte} (e : frameStep s.buf = .extract h p) :
    runFraming cfg s = runFraming cfg (handlePacket cfg p (bufDropFront (h + p.length) s)) := by
  rw [runFraming, framingLoop_of_enough_fuel cfg le_rfl (Nat.le_succ _), framingLoop_of_extract cfg _ e]
  refine framingLoop_of_enough_fuel cfg ?_ le_rfl
  rw [handlePacket_bufDropFront_buf, List.length_drop]
  exact Nat.sub_le ..

/-- Settles O38: with no packet the loop is over, and with one it goes on from the state that handling it leaves. -/
theorem runFramingLoops : Obligations.RunFramingLoops := by
  intro cfg s
  refine ⟨?_, runFraming_quiescent cfg s⟩
  cases e : frameStep s.buf with
  | idle => exact runFraming_of_quiescent cfg (by rw [quiescent, e])
  | wait => exact runFraming_of_quiescent cfg (by rw [quiescent, e])
  | extract h p => exact runFraming_of_extract cfg e

/-- Dispatching a packet reads no byte of BUF (43_dispatcher.md R183). -/
theorem dispatch_buf (cfg : Params) (p : List Byte) (m : Memory) (s : State) :
    dispatch cfg p { s with buf := m } = { dispatch cfg p s with buf := m } := by
  obtain ⟨-, herr, hmode, hcmds⟩ := dispatch_frame cfg p s
  refine (dispatch_takeScaleOut cfg p { s with buf := m } s).trans ?_
  rw [takeScaleOut, ← herr, ← hmode, ← hcmds]

theorem handlePacket_buf (cfg : Params) (p : List Byte) (m : Memory) (s : State) :
    handlePacket cfg p { s with buf := m } = { handlePacket cfg p s with buf := m } := by
  obtain ⟨hv, hdone⟩ | ⟨hv, hdone⟩ := handlePacket_cases cfg p s <;> rw [hdone]
  · exact (if_pos hv).trans (dispatch_buf cfg p m (emit (.pkt (cfg.msgKind (packetType p)) p) s))
  · exact if_neg (Bool.eq_false_iff.mp hv)

/-- A complete packet is extracted as it is whatever follows it. -/
theorem frameStep_append {m : Memory} {h : Nat} {p : List Byte} (e : frameStep m = .extract h p) (l : List Byte) :
    frameStep (m ++ l) = .extract h p := by
  rw [frameStep_eq_extract] at e ⊢
  obtain ⟨hscan, n, hn, hlen, rfl⟩ := e
  obtain ⟨hlt, -⟩ := List.getElem?_eq_some_iff.mp hn
  refine ⟨headerScan_append hscan l, n, by rwa [List.getElem?_append_left hlt], ?_, ?_⟩
  · rw [List.length_append]
    omega
  · rw [List.drop_append_of_le_length (by omega), List.take_append_of_le_length (by rw [List.length_drop]; omega)]

/-- Framing before more bytes come in changes nothing in the end (R159). -/
theorem runFraming_append (cfg : Params) (l : List Byte) (s : State) :
    runFraming cfg { s with buf := s.buf ++ l } =
      runFraming cfg { runFraming cfg s with buf := (runFraming cfg s).buf ++ l } := by
  induction hn : s.buf.length using Nat.strong_induction_on generalizing s with
  | _ n ih =>
    obtain hq | ⟨h, p, e⟩ := quiescent_or_extract s.buf
    · rw [runFraming_of_quiescent cfg hq]
    · obtain ⟨hp5, hlen⟩ := frameStep_extract_length e
      have hrest := handlePacket_bufDropFront_buf cfg p (h + p.length) s
      have hpass : handlePacket cfg p (bufDropFront (h + p.length) { s with buf := s.buf ++ l }) =
          { handlePacket cfg p (bufDropFront (h + p.length) s) with buf := s.buf.drop (h + p.length) ++ l } := by
        rw [← handlePacket_buf, ← List.drop_append_of_le_length hlen]
        rfl
      rw [runFraming_of_extract cfg e, runFraming_of_extract cfg (s := { s with buf := s.buf ++ l }) (frameStep_append e l),
        hpass, ← hrest]
      refine ih _ ?_ _ rfl
      rw [hrest, List.length_drop]
      omega

/-- Settles O46, chunk by chunk: each leaves a quiescent buffer for the next. -/
theorem chunkingDoesNotMatter : Obligations.ChunkingDoesNotMatter := by
  intro cfg s chunks hq
  induction chunks generalizing s with
  | nil =>
    rw [List.flatten_nil, List.append_nil]
    exact (runFraming_of_quiescent cfg hq).symm
  | cons c chunks ih =>
    rw [List.foldl_cons, ih _ (runFraming_quiescent ..), ← runFraming_append, List.flatten_cons, List.append_assoc]

end Sys2Proof.Safety
end

section
/-! The bounded buffer against the source's unbounded one (42_frame_assembler.md R157): the source still holds the bytes that the
block has dropped, no marker pair begins in them, and so both extract the same packets. -/

namespace Sys2Proof.Safety

open Sys2Proof.Machine

/-- What the source's buffer may hold in front of the block's buffer m: no marker pair begins in it, and it is gone once m is
empty. Without the second part its last byte and the next byte pushed could make a pair. -/
structure DroppedNoise (noise m : List Byte) : Prop where
  pairFree : ∀ i < noise.length, ¬ PairAt (noise ++ m) i
  nil_of_nil : m = [] → noise = []

theorem droppedNoise_nil (m : List Byte) : DroppedNoise [] m := ⟨fun _ hi => absurd hi (Nat.not_lt_zero _), fun _ => rfl⟩

theorem DroppedNoise.append {noise m : List Byte} (hd : DroppedNoise noise m) (l : List Byte) :
    DroppedNoise noise (m ++ l) := by
  obtain rfl | hm := eq_or_ne m []
  · rw [hd.nil_of_nil rfl]
    exact droppedNoise_nil _
  · have hpos : 0 < m.length := List.length_pos_iff.mpr hm
    refine ⟨fun i hi => ?_, fun hnil => absurd (List.append_eq_nil_iff.mp hnil).1 hm⟩
    rw [← List.append_assoc, pairAt_append_left (by rw [List.length_append]; omega)]
    exact hd.pairFree i hi

/-- The overflow drop makes noise of a front byte that begins no pair. -/
theorem DroppedNoise.drop_front {noise m : List Byte} (hd : DroppedNoise noise m) (hlen : 1 < m.length)
    (hfront : ¬ PairAt m 0) : DroppedNoise (noise ++ m.take 1) (m.drop 1) := by
  refine ⟨fun i hi => ?_, fun hnil => ?_⟩
  · rw [List.append_assoc, List.take_append_drop]
    rw [List.length_append, List.length_take] at hi
    obtain hin | hend : i < noise.length ∨ i = noise.length := by omega
    · exact hd.pairFree i hin
    · have hdrop := pairAt_drop (noise ++ m) noise.length 0
      rw [List.drop_left, Nat.add_zero, ← hend] at hdrop
      exact mt hdrop.mpr hfront
  · rw [List.drop_eq_nil_iff] at hnil
    omega

/-- After a byte more, the source's buffer is again the block's with noise in front. -/
theorem exists_droppedNoise_appended {cfg : Params} {s : State} {noise : List Byte} (b : Byte) (hs : Inv cfg s)
    (hd : DroppedNoise noise s.buf) :
    ∃ noise', noise ++ s.buf ++ [b] = noise' ++ appended cfg b s.buf ∧ DroppedNoise noise' (appended cfg b s.buf) := by
  by_cases hfull : s.buf.length = cfg.bufCap
  · have hlen : 260 ≤ s.buf.length := hfull ▸ cfg.bufCap_min
    rw [appended, if_pos hfull]
    refine ⟨noise ++ s.buf.take 1, ?_,
      (hd.drop_front (by omega) (not_pairAt_zero_of_quiescent hs.2 hlen)).append [b]⟩
    rw [← List.append_assoc, List.append_assoc noise (s.buf.take 1), List.take_append_drop]
  · rw [appended, if_neg hfull]
    exact ⟨noise, List.append_assoc .., hd.append [b]⟩

/-- A scan passes over indices at which no pair stands. -/
theorem headerScan_zero_eq_of_pairFree {m : List Byte} {k : Nat} (hk : ∀ i < k, ¬ PairAt m i) :
    headerScan m 0 = headerScan m k := by
  induction k with
  | zero => rfl
  | succ k ih =>
    rw [ih fun i hi => hk i (Nat.lt_succ_of_lt hi), headerScan_succ_of_not_pairAt (hk k (Nat.lt_succ_self k))]

theorem DroppedNoise.headerScan_append {noise m : List Byte} (hd : DroppedNoise noise m) :
    headerScan (noise ++ m) 0 = (headerScan m 0).map (· + noise.length) := by
  rw [headerScan_zero_eq_of_pairFree hd.pairFree, headerScan_eq_map_drop, List.drop_left]

theorem getElem?_length_add_append (noise m : List Byte) (h : Nat) :
    (noise ++ m)[h + noise.length + 3]? = m[h + 3]? := by
  rw [List.getElem?_append_right (by omega), show h + noise.length + 3 - noise.length = h + 3 by omega]

/-- FrameStep extracts the same packet behind the noise. -/
theorem DroppedNoise.frameStep_append {noise m : List Byte} (hd : DroppedNoise noise m) {h : Nat} {p : List Byte}
    (e : frameStep m = .extract h p) : frameStep (noise ++ m) = .extract (h + noise.length) p := by
  rw [frameStep_eq_extract] at e ⊢
  obtain ⟨hscan, n, hn, hlen, rfl⟩ := e
  refine ⟨by rw [hd.headerScan_append, hscan]; rfl, n, by rwa [getElem?_length_add_append], ?_, ?_⟩
  · rw [List.length_append]
    omega
  · rw [Nat.add_comm h, List.drop_length_add_append]

/-- Noise in front completes no packet. -/
theorem DroppedNoise.quiescent_append {noise m : List Byte} (hd : DroppedNoise noise m) (hq : quiescent m = true) :
    quiescent (noise ++ m) = true := by
  rw [quiescent_iff] at hq ⊢
  intro k n hscan hn
  rw [hd.headerScan_append, Option.map_eq_some_iff] at hscan
  obtain ⟨h, hscan, rfl⟩ := hscan
  rw [getElem?_length_add_append] at hn
  have hshort := hq h n hscan hn
  rw [List.length_append]
  omega

/-- A packet that ends the buffer is the only one handled, with BUF empty. -/
theorem runFraming_of_extract_ends (cfg : Params) {s : State} {h : Nat} {p : List Byte}
    (e : frameStep s.buf = .extract h p) (hend : h + p.length = s.buf.length) :
    runFraming cfg s = handlePacket cfg p { s with buf := [] } := by
  have hall : bufDropFront (h + p.length) s = { s with buf := [] } := by
    rw [bufDropFront, hend, List.drop_length]
  rw [runFraming_of_extract cfg e, hall]
  refine runFraming_of_quiescent cfg ?_
  rw [(handlePacket_frame ..).1]
  rfl

/-- One byte into the block and into the source's block, which holds noise in front: the results differ in such noise only. -/
theorem runFraming_droppedNoise {cfg : Params} {s : State} {noise : List Byte} (b : Byte) (hs : Inv cfg s)
    (hd : DroppedNoise noise s.buf) :
    ∃ noise', runFraming cfg { s with buf := noise ++ s.buf ++ [b] } =
        { push cfg b s with buf := noise' ++ (push cfg b s).buf } ∧ DroppedNoise noise' (push cfg b s).buf := by
  obtain ⟨noise', hbuf, hd'⟩ := exists_droppedNoise_appended b hs hd
  rw [hbuf]
  obtain hq | ⟨h, p, e⟩ := quiescent_or_extract (appended cfg b s.buf)
  · rw [push_of_quiescent cfg hq]
    exact ⟨noise', runFraming_of_quiescent cfg (hd'.quiescent_append hq), hd'⟩
  · have hend : h + noise'.length + p.length = (noise' ++ appended cfg b s.buf).length := by
      rw [List.length_append, ← extract_appended_ends hs e]
      omega
    rw [push_eq_handlePacket hs e]
    exact ⟨[], runFraming_of_extract_ends cfg (hd'.frameStep_append e) hend, droppedNoise_nil _⟩

/-- A chunk into the block byte by byte, and into the source's block whole. -/
theorem runFraming_append_eq_pushAll {cfg : Params} {s : State} (bs : List Byte) (hs : Inv cfg s) :
    ∃ noise, runFraming cfg { s with buf := s.buf ++ bs } =
        { pushAll cfg bs s with buf := noise ++ (pushAll cfg bs s).buf } ∧ DroppedNoise noise (pushAll cfg bs s).buf := by
  induction bs using List.reverseRecOn with
  | nil =>
    rw [List.append_nil]
    exact ⟨[], runFraming_of_quiescent cfg hs.2, droppedNoise_nil _⟩
  | append_singleton bs b ih =>
    obtain ⟨noise, hframed, hd⟩ := ih
    have hbyte := runFraming_append cfg [b] { s with buf := s.buf ++ bs }
    rw [hframed] at hbyte
    rw [← List.append_assoc, pushAll_concat, hbyte]
    exact runFraming_droppedNoise b (pushAll_inv cfg bs hs) hd

/-- Settles O47: the noise that the source still holds is what the block has dropped. -/
theorem pushnMatchesChunkFraming : Obligations.PushnMatchesChunkFraming := by
  intro cfg s bs hs
  obtain ⟨noise, hframed, hd⟩ := runFraming_append_eq_pushAll bs hs
  exact ⟨noise, hframed, hd.pairFree⟩

end Sys2Proof.Safety
end

section
/-! Command sequences over the bounded and the unbounded buffer (42_frame_assembler.md R157). -/

namespace Sys2Proof.Safety

open Sys2Proof.Machine

/-- What a command word can do, whatever way a byte enters BUF: only PUSH appends. -/
theorem performWith_cases (cfg : Params) (w : Word16) :
    (∃ b, ∀ append s, performWith append cfg w s = runFraming cfg (append b s)) ∨
    (∀ append s, performWith append cfg w s = softReset s) ∨
    (∃ k, ∀ append s, performWith append cfg w s = setMode k s) ∨
    (∃ x, ∀ append s, performWith append cfg w s = readReg x s) ∨
    ∀ append s, performWith append cfg w s = illegalCommand w s := by
  cases hd : decode w with
  | illegal why => exact .inr (.inr (.inr (.inr fun append s => by simp only [performWith, hd])))
  | legal i =>
    cases i with
    | push b => exact .inl ⟨b, fun append s => by simp only [performWith, hd]⟩
    | reset => exact .inr (.inl fun append s => by simp only [performWith, hd])
    | setmode m =>
      cases hm : modeOfByte m with
      | some k => exact .inr (.inr (.inl ⟨k, fun append s => by simp only [performWith, hd, hm]⟩))
      | none => exact .inr (.inr (.inr (.inr fun append s => by simp only [performWith, hd, hm])))
    | rdreg r =>
      cases hr : regOfByte r with
      | some x => exact .inr (.inr (.inr (.inl ⟨x, fun append s => by simp only [performWith, hd, hr]⟩)))
      | none => exact .inr (.inr (.inr (.inr fun append s => by simp only [performWith, hd, hr])))

/-- The source's block u beside the block s: noise in front of BUF, and other values in BUFLEVEL replies, at most. -/
def MatchesUnbounded (s u : State) : Prop :=
  ∃ noise o, u = { s with buf := noise ++ s.buf, out := o } ∧ o.map hideLevel = s.out.map hideLevel ∧
    DroppedNoise noise s.buf

/-- Noise in front of BUF shows in BUFLEVEL only. -/
theorem hideLevel_rsp_droppedNoise {s : State} {noise : List Byte} (x : Reg) (o : List OutEvent)
    (hd : DroppedNoise noise s.buf) :
    hideLevel (.rsp (regNumber x) (regValue x { s with buf := noise ++ s.buf, out := o })) =
      hideLevel (.rsp (regNumber x) (regValue x s)) := by
  cases x with
  | status =>
    have hframing : framing (noise ++ s.buf) = framing s.buf := by
      rw [framing, framing, hd.headerScan_append, Option.isSome_map]
    simp only [regValue, hframing]
  | buflevel => rfl
  | ctrl | errcnt | wmag | wdiv | wflags | battery | tmrmin | tmrsec | tmrms => rfl

theorem runFraming_emits (cfg : Params) (s : State) : ∃ es, Emits (runFraming cfg) s es := by
  obtain ⟨es, hes⟩ := framingLoop_emits cfg s.buf.length s
  exact ⟨es, hes.congr fun _ => rfl⟩

/-- Outputs that differ in BUFLEVEL values at most still do after such events more. -/
theorem map_hideLevel_append {o o' es es' : List OutEvent} (ho : o.map hideLevel = o'.map hideLevel)
    (hes : es.map hideLevel = es'.map hideLevel) : (o ++ es).map hideLevel = (o' ++ es').map hideLevel := by
  rw [List.map_append, List.map_append, ho, hes]

theorem push_matchesUnbounded {cfg : Params} {s u : State} (b : Byte) (hs : Inv cfg s) (hu : MatchesUnbounded s u) :
    MatchesUnbounded (push cfg b s) (runFraming cfg (appendUnbounded b u)) := by
  obtain ⟨noise, o, rfl, ho, hd⟩ := hu
  obtain ⟨noise', hframed, hd'⟩ := runFraming_droppedNoise b hs hd
  obtain ⟨es, hes⟩ := runFraming_emits cfg { s with buf := noise ++ s.buf ++ [b] }
  have hout : (push cfg b s).out = s.out ++ es := by
    have hgrows := hes.out
    rwa [hframed] at hgrows
  refine ⟨noise', o ++ es, ?_, ?_, hd'⟩
  · rw [appendUnbounded, hes.unread o, hframed]
  · rw [hout]
    exact map_hideLevel_append ho rfl

/-- One command word keeps the two blocks matched. -/
theorem perform_matchesUnbounded {cfg : Params} {s u : State} (w : Word16) (hs : Inv cfg s)
    (hu : MatchesUnbounded s u) : MatchesUnbounded (perform cfg w s) (performUnbounded cfg w u) := by
  rw [perform, performUnbounded]
  obtain ⟨b, e⟩ | e | ⟨k, e⟩ | ⟨x, e⟩ | e := performWith_cases cfg w <;> rw [e, e]
  · exact push_matchesUnbounded b hs hu
  all_goals obtain ⟨noise, o, rfl, ho, hd⟩ := hu
  · exact ⟨[], o, rfl, ho, droppedNoise_nil _⟩
  · exact ⟨noise, o, rfl, ho, hd⟩
  · exact ⟨noise, _, rfl, map_hideLevel_append ho (congrArg (· :: []) (hideLevel_rsp_droppedNoise x o hd)), hd⟩
  · exact ⟨noise, _, rfl, map_hideLevel_append ho rfl, hd⟩

theorem foldl_perform_matchesUnbounded {cfg : Params} (ws : List Word16) {s u : State} (hs : Inv cfg s)
    (hu : MatchesUnbounded s u) :
    MatchesUnbounded (ws.foldl (fun v w => perform cfg w v) s) (ws.foldl (fun v w => performUnbounded cfg w v) u) := by
  induction ws generalizing s u with
  | nil => exact hu
  | cons w ws ih => exact ih (perform_inv cfg w hs) (perform_matchesUnbounded w hs hu)

/-- Settles O48: the two blocks start alike and every command keeps them matched. -/
theorem boundedBufferMatchesUnbounded : Obligations.BoundedBufferMatchesUnbounded := by
  intro cfg s ws hs t u
  obtain ⟨noise, o, hu, ho, -⟩ : MatchesUnbounded t u :=
    foldl_perform_matchesUnbounded ws hs ⟨[], s.out, rfl, rfl, droppedNoise_nil _⟩
  rw [hu]
  exact ⟨ho.symm, rfl, rfl, rfl, List.suffix_append ..⟩

end Sys2Proof.Safety
end

section
/-! What dispatching a packet and decoding its event region cannot do (43_dispatcher.md R183, 44_event_decoder.md R198): they
work on SCALE and OUT alone, and the region's length bounds the measurements that OUT gains. -/

namespace Sys2Proof.Safety

open Sys2Proof.Machine

/-- Settles O51: dispatching only replaces SCALE and OUT, by values that depend on nothing else of the state. -/
theorem dispatchIgnoresBufferAndCounter : Obligations.DispatchIgnoresBufferAndCounter := by
  intro cfg p s m e k
  obtain ⟨hbuf, herr, hmode, hcmds⟩ := dispatch_frame cfg p s
  refine ⟨?_, hbuf, herr, hmode, hcmds⟩
  calc dispatch cfg p { s with buf := m, errcnt := e, cksumMode := k }
    _ = takeScaleOut { s with buf := m, errcnt := e, cksumMode := k } (dispatch cfg p s) :=
      dispatch_takeScaleOut cfg p { s with buf := m, errcnt := e, cksumMode := k } s
    _ = { dispatch cfg p s with buf := m, errcnt := e, cksumMode := k } := by rw [takeScaleOut, ← hcmds]

/-- Every record has a body, so with its type byte it takes at least two bytes (R198). -/
theorem bodyLength_pos (k : EvKind) : 0 < bodyLength k := by cases k <;> decide

/-- What the end of decoding may emit: nothing, or one LOG event for the unknown type or the short body that stops it (R195). -/
def StopEvents (last : List OutEvent) : Prop :=
  last = [] ∨ ∃ t : Byte, last = [.log .unknownEvent (t.setWidth 16)] ∨ last = [.log .truncEvent (t.setWidth 16)]

theorem StopEvents.length_le_one {last : List OutEvent} (h : StopEvents last) : last.length ≤ 1 := by
  obtain rfl | ⟨t, rfl | rfl⟩ := h
  · exact Nat.zero_le 1
  all_goals exact Nat.le_refl 1

theorem StopEvents.eq_log {last : List OutEvent} (h : StopEvents last) {e : OutEvent} (he : e ∈ last) :
    ∃ c a, e = .log c a := by
  obtain rfl | ⟨t, rfl | rfl⟩ := h
  · cases he
  all_goals exact ⟨_, _, List.mem_singleton.mp he⟩

/-- From cursor c the loop emits at most half as many measurements as bytes are left, and then what stops it. -/
theorem decodeLoop_out (cfg : Params) (E : List Byte) (fuel c : Nat) (s : State) :
    ∃ (ms : List Meas) (last : List OutEvent), (decodeLoop cfg E fuel c s).out = s.out ++ ms.map OutEvent.meas ++ last ∧
      ms.length ≤ (E.length - c) / 2 ∧ StopEvents last := by
  induction fuel generalizing c s with
  | zero => exact ⟨[], [], by simp [decodeLoop], Nat.zero_le _, .inl rfl⟩
  | succ fuel ih =>
    by_cases hc : c < E.length
    · cases hk : evKind cfg (byteAt E c) with
      | none => exact ⟨[], _, by simp [decodeLoop, hc, hk], Nat.zero_le _, .inr ⟨byteAt E c, .inl rfl⟩⟩
      | some k =>
        by_cases hn : c + 1 + bodyLength k > E.length
        · exact ⟨[], _, by simp [decodeLoop, hc, hk, hn], Nat.zero_le _, .inr ⟨byteAt E c, .inr rfl⟩⟩
        · have hpos := bodyLength_pos k
          obtain ⟨-, m, hm⟩ := applyEvent_frame cfg k (slice (c + 1) (c + 1 + bodyLength k) E) s
          obtain ⟨ms, last, hout, hlen, hlast⟩ :=
            ih (c + 1 + bodyLength k) (applyEvent cfg k (slice (c + 1) (c + 1 + bodyLength k) E) s)
          refine ⟨m :: ms, last, ?_, ?_, hlast⟩
          · simp [decodeLoop, hc, hk, hn, hout, hm]
          · rw [List.length_cons]
            omega
    · exact ⟨[], [], by simp [decodeLoop, hc], Nat.zero_le _, .inl rfl⟩

/-- Settles O60: the loop's bound at cursor 0, and the decoder's frame. -/
theorem decodingIsBoundedByRegion : Obligations.DecodingIsBoundedByRegion := by
  intro cfg E s
  obtain ⟨hbuf, herr, hmode, hcmds⟩ := decodeEvents_frame cfg E s
  obtain ⟨ms, last, hout, hlen, hlast⟩ := decodeLoop_out cfg E E.length 0 s
  exact ⟨hbuf, herr, hmode, hcmds, ms, last, hout, hlen, hlast.length_le_one, fun _ he => hlast.eq_log he⟩

end Sys2Proof.Safety
end

section
/-! The event types and the fields of a weight record (30_encoding.md R91 to R93, 44_event_decoder.md R199). -/

namespace Sys2Proof.Machine

/-- The type byte of an event kind (R91). -/
def evtByte (cfg : Params) : EvKind → Byte
  | .weight => cfg.evtWeight
  | .battery => cfg.evtBattery
  | .timer => cfg.evtTimer
  | .key => cfg.evtKey
  | .ack => cfg.evtAck

/-- The five type bytes are pairwise distinct (R7), so each is recognised as its own kind whichever the decoder asks first. -/
theorem evKind_evtByte (cfg : Params) (k : EvKind) : evKind cfg (evtByte cfg k) = some k := by
  have hdistinct := cfg.evt_distinct
  simp only [List.nodup_cons, List.mem_cons, List.not_mem_nil, or_false, not_or] at hdistinct
  obtain ⟨⟨hwb, hwt, hwk, hwa⟩, ⟨hbt, hbk, hba⟩, ⟨htk, hta⟩, hka, -⟩ := hdistinct
  cases k with
  | weight => exact evKind_evtWeight cfg
  | battery => simp [evKind, evtByte, Ne.symm hwb]
  | timer => simp [evKind, evtByte, Ne.symm hwt, Ne.symm hbt]
  | key => simp [evKind, evtByte, Ne.symm hwk, Ne.symm hbk, Ne.symm htk]
  | ack => simp [evKind, evtByte, Ne.symm hwa, Ne.symm hba, Ne.symm hta, Ne.symm hka]

theorem evlen_evtByte (cfg : Params) (k : EvKind) : evlen cfg (evtByte cfg k) = some (bodyLength k) := by
  rw [evlen, evKind_evtByte, Option.map_some]

theorem evlen_eq_some_iff {cfg : Params} {t : Byte} {n : Nat} :
    evlen cfg t = some n ↔ ∃ k, evKind cfg t = some k ∧ bodyLength k = n := Option.map_eq_some_iff

theorem evlen_eq_none_iff {cfg : Params} {t : Byte} : evlen cfg t = none ↔
    t ≠ cfg.evtWeight ∧ t ≠ cfg.evtBattery ∧ t ≠ cfg.evtTimer ∧ t ≠ cfg.evtKey ∧ t ≠ cfg.evtAck := by
  rw [evlen, Option.map_eq_none_iff]
  constructor
  · intro hnone
    have hne (k : EvKind) : t ≠ evtByte cfg k := by
      rintro rfl
      simp [evKind_evtByte] at hnone
    exact ⟨hne .weight, hne .battery, hne .timer, hne .key, hne .ack⟩
  · rintro ⟨hw, hb, ht, hk, ha⟩
    simp only [evKind, if_neg hw, if_neg hb, if_neg ht, if_neg hk, if_neg ha]

/-- Settles O53. -/
theorem eventLengths : Obligations.EventLengths := fun cfg =>
  ⟨evlen_evtByte cfg .weight, evlen_evtByte cfg .battery, evlen_evtByte cfg .timer, evlen_evtByte cfg .key,
    evlen_evtByte cfg .ack, fun _ => evlen_eq_none_iff⟩

/-- The three bytes do not overlap, so joining them with OR is adding them at their weights (R62). -/
theorem magnitude_eq_ofNat (body : List Byte) : magnitude body =
    BitVec.ofNat 24 ((byteAt body 0).toNat + 256 * (byteAt body 1).toNat + 65536 * (byteAt body 2).toNat) := by
  have h0 := (byteAt body 0).isLt
  have h1 := (byteAt body 1).isLt
  have h2 := (byteAt body 2).isLt
  have hlow : 2 ^ 8 * (byteAt body 1).toNat + (byteAt body 0).toNat < 2 ^ 16 := by omega
  apply BitVec.eq_of_toNat_eq
  simp only [magnitude, BitVec.toNat_or, BitVec.toNat_shiftLeft, BitVec.toNat_setWidth, BitVec.toNat_ofNat,
    Nat.shiftLeft_eq]
  simp (disch := omega) only [Nat.mod_eq_of_lt]
  rw [Nat.or_comm (byteAt body 0).toNat, Nat.mul_comm (byteAt body 1).toNat, ← Nat.two_pow_add_eq_or_of_lt h0,
    Nat.or_comm, Nat.mul_comm (byteAt body 2).toNat, ← Nat.two_pow_add_eq_or_of_lt hlow]
  omega

theorem negFlag_eq (flags : Byte) : negFlag flags = decide (flags.toNat / 2 % 2 = 1) := by
  simp [negFlag, BitVec.getLsbD, Nat.testBit_eq_decide_div_mod_eq]

theorem stableFlag_eq (flags : Byte) : stableFlag flags = decide (flags.toNat % 2 = 0) := by
  obtain h | h := Nat.mod_two_eq_zero_or_one flags.toNat <;>
    simp [stableFlag, BitVec.getLsbD, Nat.testBit_eq_decide_div_mod_eq, h]

theorem unitOf_eq (div : Byte) :
    unitOf div = if div.toNat = 2 then .grams else if div.toNat = 4 then .ounces else .noUnit := by
  simp only [unitOf, ← BitVec.toNat_inj]
  rfl

/-- Settles O56: the record is applied as a weight record, and each of its fields is its arithmetic meaning. -/
theorem weightRecordDecodes : Obligations.WeightRecordDecodes := by
  intro cfg s b0 b1 b2 b3 b4 b5 body mag div flags neg stable unit
  have hmag : magnitude body = mag := magnitude_eq_ofNat body
  have hneg : negFlag (byteAt body cfg.wflgOff) = neg := negFlag_eq _
  have hstable : stableFlag (byteAt body cfg.wflgOff) = stable := stableFlag_eq _
  have hunit : unitOf (byteAt body cfg.wdivOff) = unit := unitOf_eq _
  rw [decodeEvents_single_record cfg s (evKind_evtWeight cfg) rfl, applyEvent, applyWeight, hmag, hneg, hstable, hunit]
  rfl

/-- Settles O58: each region is one whole record of its kind. -/
theorem otherRecordsDecode : Obligations.OtherRecordsDecode := fun cfg s _ _ _ =>
  ⟨decodeEvents_single_record cfg s (evKind_evtByte cfg .battery) rfl,
    decodeEvents_single_record cfg s (evKind_evtByte cfg .timer) rfl,
    decodeEvents_single_record cfg s (evKind_evtByte cfg .key) rfl,
    decodeEvents_single_record cfg s (evKind_evtByte cfg .ack) rfl⟩

end Sys2Proof.Machine
end

section
/-! The event decoding loop without its bound and without its cursor (44_event_decoder.md R195, R204 to R206): decoding from a
cursor is decoding the bytes from there on. -/

namespace Sys2Proof.Safety

open Sys2Proof.Machine

/-! One pass of the loop, in terms of the bytes from the cursor on. -/

theorem length_of_drop_eq_cons {E rest : List Byte} {c : Nat} {t : Byte} (hE : E.drop c = t :: rest) :
    E.length = c + 1 + rest.length := by
  have hlen := congrArg List.length hE
  rw [List.length_drop, List.length_cons] at hlen
  omega

theorem byteAt_of_drop_eq_cons {E rest : List Byte} {c : Nat} {t : Byte} (hE : E.drop c = t :: rest) :
    byteAt E c = t := by
  have hget : E[c]? = some t := by rw [← List.head?_drop, hE, List.head?_cons]
  rw [byteAt, List.getD_eq_getElem?_getD, hget, Option.getD_some]

theorem drop_succ_of_drop_eq_cons {E rest : List Byte} {c : Nat} {t : Byte} (hE : E.drop c = t :: rest) :
    E.drop (c + 1) = rest := by
  rw [List.drop_add_one_eq_tail_drop, hE, List.tail_cons]

theorem decodeLoop_unknown (cfg : Params) {E rest : List Byte} {c : Nat} {t : Byte} (fuel : Nat) (s : State)
    (hE : E.drop c = t :: rest) (hk : evKind cfg t = none) :
    decodeLoop cfg E (fuel + 1) c s = log .unknownEvent (t.setWidth 16) s := by
  have hlen := length_of_drop_eq_cons hE
  have hc : c < E.length := by omega
  simp only [decodeLoop, if_pos hc, byteAt_of_drop_eq_cons hE, hk]

theorem decodeLoop_truncated (cfg : Params) {E rest : List Byte} {c : Nat} {t : Byte} {k : EvKind} (fuel : Nat) (s : State)
    (hE : E.drop c = t :: rest) (hk : evKind cfg t = some k) (hshort : rest.length < bodyLength k) :
    decodeLoop cfg E (fuel + 1) c s = log .truncEvent (t.setWidth 16) s := by
  have hlen := length_of_drop_eq_cons hE
  have hc : c < E.length := by omega
  have hn : c + 1 + bodyLength k > E.length := by omega
  simp only [decodeLoop, if_pos hc, byteAt_of_drop_eq_cons hE, hk, if_pos hn]

theorem decodeLoop_whole (cfg : Params) {E rest : List Byte} {c : Nat} {t : Byte} {k : EvKind} (fuel : Nat) (s : State)
    (hE : E.drop c = t :: rest) (hk : evKind cfg t = some k) (hfits : ¬ rest.length < bodyLength k) :
    decodeLoop cfg E (fuel + 1) c s =
      decodeLoop cfg E fuel (c + 1 + bodyLength k) (applyEvent cfg k (rest.take (bodyLength k)) s) := by
  have hlen := length_of_drop_eq_cons hE
  have hc : c < E.length := by omega
  have hn : ¬ c + 1 + bodyLength k > E.length := by omega
  simp only [decodeLoop, if_pos hc, byteAt_of_drop_eq_cons hE, hk, if_neg hn, slice_add, drop_succ_of_drop_eq_cons hE]

/-- The bytes from the cursor on decide the loop, and passes beyond their number change nothing. -/
theorem decodeLoop_congr_drop (cfg : Params) {E E' : List Byte} {fuel fuel' c c' : Nat} (s : State)
    (hE : E.drop c = E'.drop c') (hf : (E.drop c).length ≤ fuel) (hf' : (E.drop c).length ≤ fuel') :
    decodeLoop cfg E fuel c s = decodeLoop cfg E' fuel' c' s := by
  induction fuel generalizing fuel' c c' s with
  | zero =>
    have hnil : E.drop c = [] := List.eq_nil_of_length_eq_zero (Nat.le_zero.mp hf)
    rw [decodeLoop_of_length_le cfg _ s (List.drop_eq_nil_iff.mp hnil),
      decodeLoop_of_length_le cfg _ s (List.drop_eq_nil_iff.mp (hE.symm.trans hnil))]
  | succ fuel ih =>
    cases hbytes : E.drop c with
    | nil =>
      rw [decodeLoop_of_length_le cfg _ s (List.drop_eq_nil_iff.mp hbytes),
        decodeLoop_of_length_le cfg _ s (List.drop_eq_nil_iff.mp (hE.symm.trans hbytes))]
    | cons t rest =>
      have hbytes' : E'.drop c' = t :: rest := hE.symm.trans hbytes
      rw [hbytes, List.length_cons] at hf hf'
      obtain ⟨fuel', rfl⟩ : ∃ m, fuel' = m + 1 := ⟨fuel' - 1, by omega⟩
      cases hk : evKind cfg t with
      | none => rw [decodeLoop_unknown cfg _ s hbytes hk, decodeLoop_unknown cfg _ s hbytes' hk]
      | some k =>
        by_cases hn : rest.length < bodyLength k
        · rw [decodeLoop_truncated cfg _ s hbytes hk hn, decodeLoop_truncated cfg _ s hbytes' hk hn]
        · have hrest : E.drop (c + 1 + bodyLength k) = rest.drop (bodyLength k) := by
            rw [← List.drop_drop, drop_succ_of_drop_eq_cons hbytes]
          have hrest' : E'.drop (c' + 1 + bodyLength k) = rest.drop (bodyLength k) := by
            rw [← List.drop_drop, drop_succ_of_drop_eq_cons hbytes']
          rw [decodeLoop_whole cfg _ s hbytes hk hn, decodeLoop_whole cfg _ s hbytes' hk hn]
          apply ih
          · rw [hrest, hrest']
          all_goals
            rw [hrest, List.length_drop]
            omega

/-- A whole record at the front of a region is applied, and then the rest is a region of its own. -/
theorem decodeEvents_whole (cfg : Params) {t : Byte} {k : EvKind} {rest : List Byte} (s : State)
    (hk : evKind cfg t = some k) (hfits : ¬ rest.length < bodyLength k) :
    decodeEvents cfg (t :: rest) s =
      decodeEvents cfg (rest.drop (bodyLength k)) (applyEvent cfg k (rest.take (bodyLength k)) s) := by
  have hdrop : (t :: rest).drop (0 + 1 + bodyLength k) = rest.drop (bodyLength k) := by
    rw [← List.drop_drop, Nat.zero_add, List.drop_one, List.tail_cons]
  rw [decodeEvents, List.length_cons, decodeLoop_whole cfg _ s rfl hk hfits]
  apply decodeLoop_congr_drop
  · rw [hdrop, List.drop_zero]
  · rw [hdrop, List.length_drop]
    omega
  · rw [hdrop]

theorem decodeEvents_record_append (cfg : Params) {t : Byte} {k : EvKind} {body : List Byte} (rest : List Byte) (s : State)
    (hk : evKind cfg t = some k) (hb : bodyLength k = body.length) :
    decodeEvents cfg (t :: (body ++ rest)) s = decodeEvents cfg rest (applyEvent cfg k body s) := by
  have hfits : ¬ (body ++ rest).length < bodyLength k := by
    rw [List.length_append]
    omega
  rw [decodeEvents_whole cfg s hk hfits, hb, List.drop_left, List.take_left]

/-- Settles O54: the first pass of the loop, and then the loop over the bytes after the record. -/
theorem decodeEventsRecordByRecord : Obligations.DecodeEventsRecordByRecord := by
  refine fun cfg s => ⟨rfl, fun t rest => ?_⟩
  cases hk : evKind cfg t with
  | none => exact decodeLoop_unknown cfg rest.length s rfl hk
  | some k =>
    by_cases hn : rest.length < bodyLength k
    · exact (decodeLoop_truncated cfg rest.length s rfl hk hn).trans (if_pos hn).symm
    · exact (decodeEvents_whole cfg s hk hn).trans (if_neg hn).symm

/-- Settles O55, by induction on the records. -/
theorem leadingRecordsAreApplied : Obligations.LeadingRecordsAreApplied := by
  intro cfg rs rest s hok
  induction rs generalizing s with
  | nil => rfl
  | cons r rs ih =>
    obtain ⟨t, body⟩ := r
    obtain ⟨hlen, hrs⟩ := List.forall_mem_cons.mp hok
    obtain ⟨k, hk, hb⟩ := evlen_eq_some_iff.mp hlen
    have hbytes : recordBytes ((t, body) :: rs) ++ rest = t :: (body ++ (recordBytes rs ++ rest)) := by
      simp [recordBytes]
    have happly : applyRecords cfg ((t, body) :: rs) s = applyRecords cfg rs (applyEvent cfg k body s) := by
      simp only [applyRecords, List.foldl_cons, hk]
    rw [hbytes, happly, decodeEvents_record_append cfg _ s hk hb]
    exact ih (applyEvent cfg k body s) hrs

/-- Settles O59: the battery record is applied, and the key record is then a region of its own. -/
theorem batteryThenKeyRecords : Obligations.BatteryThenKeyRecords := by
  intro cfg s b k
  calc decodeEvents cfg [cfg.evtBattery, b, cfg.evtKey, k] s
    _ = decodeEvents cfg [cfg.evtKey, k] (applyBattery [b] s) :=
      decodeEvents_record_append cfg [cfg.evtKey, k] s (evKind_evtByte cfg .battery) (body := [b]) rfl
    _ = applyKey [k] (applyBattery [b] s) :=
      decodeEvents_single_record cfg _ (evKind_evtByte cfg .key) rfl
    _ = { s with
        scale := { s.scale with battery := b }
        out := s.out ++ [.meas (.battery b), .meas (.key k)] } := by
      simp [applyKey, applyBattery, emit, byteAt]

end Sys2Proof.Safety
end

section
/-! The step of R230 on a waiting command word, by the decoder's answer (45_commands.md R230, R236). -/

namespace Sys2Proof.Safety

open Sys2Proof.Machine

theorem fetch_of_cmds_cons {s : State} {w : Word16} {rest : List Word16} (hc : s.cmds = w :: rest) :
    fetch s = some (w, { s with cmds := rest }) :=
  fetch_eq_some.mpr ⟨rest, hc, rfl⟩

/-- Settles O8: the word fetched is the port's head, and the step goes by the decoder's answer to it. -/
theorem stepRunsDecodedInstruction : Obligations.StepRunsDecodedInstruction := by
  intro s w rest hc
  have hfetch := fetch_of_cmds_cons hc
  constructor
  · intro i hlegal
    simp only [step, hfetch, hlegal]
  · intro why hillegal
    simp only [step, hfetch, hillegal]

end Sys2Proof.Safety
end

section
/-! The idle step (60_exceptions.md R273) and the order of the events that one packet gives (R264, R265). -/

namespace Sys2Proof.Safety

open Sys2Proof.Machine

/-- Settles O9: the step's empty-port branch. -/
theorem idleStepKeepsState : Obligations.IdleStepKeepsState := fun _ hc => step_of_cmds_nil hc

/-! What dispatching a packet adds to OUT, by the packet's kind (43_dispatcher.md R180, R181). -/

theorem dispatch_event_out {cfg : Params} {p : List Byte} (hk : cfg.msgKind (packetType p) = .event) (s : State) :
    ∃ (ms : List Meas) (last : List OutEvent),
      (dispatch cfg p s).out = s.out ++ ms.map OutEvent.meas ++ last ∧ StopEvents last := by
  obtain ⟨ms, last, hout, -, hlast⟩ := decodeLoop_out cfg (eventRegion p) (eventRegion p).length 0 s
  exact ⟨ms, last, by simp only [dispatch, hk, decodeEvents, hout], hlast⟩

theorem dispatch_unknown_out {cfg : Params} {p : List Byte} (hk : cfg.msgKind (packetType p) = .unknown) (s : State) :
    (dispatch cfg p s).out = s.out ++ [.log .unknownMsg ((packetType p).setWidth 16)] := by
  simp only [dispatch, hk, log_out]

theorem dispatch_of_terminal {cfg : Params} {p : List Byte} (hu : cfg.msgKind (packetType p) ≠ .unknown)
    (he : cfg.msgKind (packetType p) ≠ .event) (s : State) : dispatch cfg p s = s := by
  cases hk : cfg.msgKind (packetType p) with
  | unknown => exact absurd hk hu
  | event => exact absurd hk he
  | sysAck | tareAck | info | status | identAck | timerNotice => simp only [dispatch, hk]

/-- Settles O52: the two results of a packet, and for a valid one what its kind adds after the PKT event. -/
theorem packetEventOrder : Obligations.PacketEventOrder := by
  intro cfg p s T
  obtain ⟨hv, hdone⟩ | ⟨hv, hdone⟩ := handlePacket_cases cfg p s
  · have hnot : validate p s.cksumMode ≠ false := by simp [hv]
    by_cases hu : cfg.msgKind T = .unknown
    · have hne : cfg.msgKind T ≠ .event := by simp [hu]
      refine ⟨[.pkt .unknown p, .log .unknownMsg (T.setWidth 16)], ?_, (absurd · hnot), fun _ =>
        ⟨fun _ => rfl, fun h => absurd hu h, (absurd · hne)⟩⟩
      rw [hdone, dispatch_unknown_out hu, emit_out, List.append_assoc, ← hu]
      rfl
    · by_cases he : cfg.msgKind T = .event
      · obtain ⟨ms, last, hout, hlast⟩ := dispatch_event_out he (emit (.pkt (cfg.msgKind (packetType p)) p) s)
        refine ⟨.pkt .event p :: ms.map OutEvent.meas ++ last, ?_, (absurd · hnot), fun _ =>
          ⟨(absurd · hu), fun _ h => absurd he h, fun _ => ⟨ms, last, rfl, hlast⟩⟩⟩
        rw [hdone, hout, emit_out, ← he]
        simp only [List.append_assoc, List.cons_append, List.nil_append]
        rfl
      · refine ⟨[.pkt (cfg.msgKind T) p], ?_, (absurd · hnot), fun _ =>
          ⟨(absurd · hu), fun _ _ => rfl, (absurd · he)⟩⟩
        rw [hdone, dispatch_of_terminal hu he, emit_out]
        rfl
  · have hnot : validate p s.cksumMode ≠ true := by simp [hv]
    exact ⟨[.log .cksumErr (T.setWidth 16)], by rw [hdone]; exact log_out .., fun _ => rfl, (absurd · hnot)⟩

end Sys2Proof.Safety
end

section
/-! The session reset and the power-on state (70_reset_and_hazards.md R290, R291). -/

namespace Sys2Proof.Safety

open Sys2Proof.Machine

theorem regValue_status_of_buf_nil {s : State} (hb : s.buf = []) : regValue .status s = 0 := by
  rw [regValue_status, hb, headerScan_zero]
  rfl

theorem regValue_buflevel_of_buf_nil {s : State} (hb : s.buf = []) : regValue .buflevel s = 0 := by
  rw [regValue, hb]
  rfl

/-- Settles O13: RESET is `softReset`, and it leaves the two registers read from BUF an empty one. -/
theorem resetClearsSession : Obligations.ResetClearsSession := fun s =>
  ⟨exec_cases .reset s, regValue_status_of_buf_nil rfl, regValue_buflevel_of_buf_nil rfl⟩

theorem regValue_powerOn (r : Reg) : regValue r State.reset = 0 := by
  cases r with
  | status => exact regValue_status_of_buf_nil rfl
  | buflevel => exact regValue_buflevel_of_buf_nil rfl
  | ctrl | errcnt => rfl
  | wmag | wdiv | wflags | battery | tmrmin | tmrsec | tmrms => rfl

/-- Settles O18: BUF, ERRCNT, CKSUM_MODE, the nine fields of SCALE and OUT are the record's; the registers are read from them,
and no command stops in any state. -/
theorem powerOnValues : Obligations.PowerOnValues :=
  ⟨rfl, rfl, rfl, rfl, rfl, rfl, rfl, rfl, rfl, rfl, rfl, rfl, rfl, fun r _ => regValue_powerOn r,
    fun i => ⟨_, exec_cases i State.reset⟩⟩

end Sys2Proof.Safety
end
